-- ==== Sys2Proof/Word.lean ====
section
/-! DEFINITION. The two widths the FIB has: a byte of a buffer and a 32-bit word (register, address, field).
Every quantity is unsigned (00_scope.md R10). -/

namespace Sys2Proof

/-- One byte of a buffer, "a byte `0-255`" (00_scope.md R10). -/
abbrev Byte := BitVec 8

/-- A 32-bit word: a register (10_state.md R33), a checksum, a field of a header or of a record. -/
abbrev Word := BitVec 32

end Sys2Proof
end

