-- ==== Sys2Proof/Syntax.lean ====
section
/-! DEFINITION. The eight commands of the FIB, the counterpart of an instruction set (30_encoding.md R92): one
constructor per row of spec/opcode_table.json. -/

namespace Sys2Proof

/-- A command. `sel` is the value of the command word's `SEL` field, "used as it stands (zero-extended; never
sign-extended, scaled or shifted)" (30_encoding.md R93); what it selects depends on the command. -/
inductive Instr where
  /-- `CRC.INIT` (40_crc.md R134). -/
  | crcInit
  /-- `CRC.WORD` (40_crc.md R135). -/
  | crcWord
  /-- `CRC.COMPUTE sel`, `sel` an input buffer (40_crc.md R136). -/
  | crcCompute (sel : Nat)
  /-- `HDR.PARSE sel`, `sel` an input buffer (41_header.md R153). -/
  | hdrParse (sel : Nat)
  /-- `FITS region`, `sel` a region (42_layout.md R176). -/
  | fits (sel : Nat)
  /-- `META.BUILD bank`, `sel` the active bank (43_metadata.md R196). -/
  | metaBuild (sel : Nat)
  /-- `META.PARSE sel`, `sel` an input buffer (43_metadata.md R201). -/
  | metaParse (sel : Nat)
  /-- `MERGE` (44_merge.md R225). -/
  | merge
  deriving DecidableEq, Repr

end Sys2Proof
end

