-- ==== Sys2Proof/WellFormed.lean ====
section
/-! DEFINITION. Which terms of `Instr` a command word can spell: the selector fits the 8-bit `SEL` field
(30_encoding.md R90, R93). A selector that is out of range for its command is still well-formed: it decodes to the
command, which then fails with `InvalidArgument` (R91). -/

namespace Sys2Proof

/-- The selector is a value of the 8-bit field `SEL` (30_encoding.md R90). -/
def selFits (sel : Nat) : Bool := decide (sel < 256)

/-- The command can be written as a command word. -/
def Instr.wellFormed : Instr → Bool
  | .crcInit => true
  | .crcWord => true
  | .crcCompute sel => selFits sel
  | .hdrParse sel => selFits sel
  | .fits sel => selFits sel
  | .metaBuild sel => selFits sel
  | .metaParse sel => selFits sel
  | .merge => true

end Sys2Proof
end

