-- ==== Sys2Proof/Decode.lean ====
section
/-! DEFINITION. The command word (format `C`), its decoder and its encoder (30_encoding.md R90 to R94). -/

namespace Sys2Proof

/-! ### The fields of format `C` (30_encoding.md R90) -/

/-- `OPC`, bits 7:0. -/
def fieldOpc (w : Word) : Byte := w.extractLsb' 0 8

/-- `SEL`, bits 15:8. -/
def fieldSel (w : Word) : Byte := w.extractLsb' 8 8

/-- `RSV`, bits 31:16, "must be written as 0". -/
def fieldRsv (w : Word) : BitVec 16 := w.extractLsb' 16 16

/-! ### The eight opcodes (30_encoding.md R92) -/

def opcCrcInit : Byte := 0x01#8
def opcCrcWord : Byte := 0x02#8
def opcCrcCompute : Byte := 0x03#8
def opcHdrParse : Byte := 0x10#8
def opcFits : Byte := 0x21#8
def opcMetaBuild : Byte := 0x30#8
def opcMetaParse : Byte := 0x31#8
def opcMerge : Byte := 0x40#8

/-- Why a word decodes to `Illegal` (30_encoding.md R91). All three execute alike (60_exceptions.md R247). -/
inductive IllegalWord where
  /-- `RSV != 0`. -/
  | reservedNonzero
  /-- `OPC` is not one of the eight opcodes. -/
  | unassignedOpcode
  /-- The command takes no selector and `SEL != 0`. -/
  | selectorNonzero
  deriving DecidableEq, Repr

/-- A command that takes no selector: its word is legal only with `SEL = 0` (30_encoding.md R91). -/
def withoutSelector (w : Word) (i : Instr) : Except IllegalWord Instr :=
  if fieldSel w = 0#8 then .ok i else .error .selectorNonzero

/-- The decoder, total on 32-bit words, in the order of 30_encoding.md R91: `RSV`, then `OPC`, then `SEL` of a command
without selector. -/
def decode (w : Word) : Except IllegalWord Instr :=
  if fieldRsv w ≠ 0#16 then .error .reservedNonzero
  else if fieldOpc w = opcCrcInit then withoutSelector w .crcInit
  else if fieldOpc w = opcCrcWord then withoutSelector w .crcWord
  else if fieldOpc w = opcCrcCompute then .ok (.crcCompute (fieldSel w).toNat)
  else if fieldOpc w = opcHdrParse then .ok (.hdrParse (fieldSel w).toNat)
  else if fieldOpc w = opcFits then .ok (.fits (fieldSel w).toNat)
  else if fieldOpc w = opcMetaBuild then .ok (.metaBuild (fieldSel w).toNat)
  else if fieldOpc w = opcMetaParse then .ok (.metaParse (fieldSel w).toNat)
  else if fieldOpc w = opcMerge then withoutSelector w .merge
  else .error .unassignedOpcode

/-- The opcode of a command (30_encoding.md R92). -/
def Instr.opcode : Instr → Byte
  | .crcInit => opcCrcInit
  | .crcWord => opcCrcWord
  | .crcCompute _ => opcCrcCompute
  | .hdrParse _ => opcHdrParse
  | .fits _ => opcFits
  | .metaBuild _ => opcMetaBuild
  | .metaParse _ => opcMetaParse
  | .merge => opcMerge

/-- The `SEL` field of a command: 0 where it takes no selector (30_encoding.md R92). -/
def Instr.selector : Instr → Nat
  | .crcInit => 0
  | .crcWord => 0
  | .crcCompute sel => sel
  | .hdrParse sel => sel
  | .fits sel => sel
  | .metaBuild sel => sel
  | .metaParse sel => sel
  | .merge => 0

/-- The word to write to `CMD`, "`OPC | (SEL << 8)`" with `RSV = 0` (30_encoding.md R90, R95). -/
def encode (i : Instr) : Word := 
  i.opcode.setWidth 32 ||| ((BitVec.ofNat 8 i.selector).setWidth 32 <<< 8)

/-- The command the decoder reads from a row of spec/opcode_table.json whose bits are `w`. A command word has no byte
order of its own (20_memory.md R64: there is no fetch): it is one 32-bit value written to `CMD`. -/
def decodeTableWord (nbits w : Nat) : Option Instr :=
  match decode (BitVec.ofNat 32 (w % 2 ^ nbits)) with
  | .ok i => some i
  | .error _ => none

end Sys2Proof
end

