-- ==== Sys2Proof/Config.lean ====
section
/-! DEFINITION. The immutable configuration `CFG` of the block (00_scope.md R7): the parameters the spec leaves OPEN
(92_eei_decisions.md D15), and the one configuration `cfg` this machine was built with, a constant without a body:
nothing can be proved about its values, so a claim about the machine holds for every configuration. -/

namespace Sys2Proof

/-- The parameters of one FIB (00_scope.md section 3). Addresses are `ADDR_W = 32` bits wide (D11). `BOOT_SIZE` is a
constant of the spec, `APP_BASE`, `APP_SIZE` and `app_offset` are derived (R8, D14): none of them is a field. -/
structure Config where
  /-- `BOOT_BASE`, the base address of the bootloader region. -/
  bootBase : Word
  /-- `BANK_A_BASE`, the base address of bank A. -/
  bankABase : Word
  /-- `BANK_B_BASE`, the base address of bank B. -/
  bankBBase : Word
  /-- `BANK_SIZE`, the one size of both banks. -/
  bankSize : Word
  /-- `DATA_BASE`, the base address of the data (metadata) region. -/
  dataBase : Word
  /-- `DATA_SIZE`, the size of the data region. -/
  dataSize : Word
  /-- `FLAG_A`, the record's flag byte when bank A is active. -/
  flagA : Byte
  /-- `FLAG_B`, the record's flag byte when bank B is active. -/
  flagB : Byte
  deriving DecidableEq, Repr, Inhabited

/-- The configuration this block was built with (R7, R282: fixed, never state). All its fields are OPEN in the spec
(D15), so it has no body. -/
opaque cfg : Config

end Sys2Proof
end

