-- ==== Sys2Proof/Machine/Constants.lean ====
section
/-! DEFINITION. The constants the source fixes, "the same in every configuration" (00_scope.md section 3). -/

namespace Sys2Proof.Machine

/-- `CRC_INIT`: initial accumulator value and absent-bank sentinel. -/
def crcInitial : Word := 0xFFFFFFFF#32

/-- `CRC_POLY`, "the fixed polynomial". -/
def crcPoly : Word := 0x04C11DB7#32

/-- `CRC_ROUNDS`: shift rounds per word. -/
def crcRoundCount : Nat := 32

/-- `HDR_SIZE`: minimum image length that can carry a header. -/
def hdrSize : Nat := 64

/-- `HDR_MAGIC`, the header sentinel. -/
def hdrMagic : Word := 0xDEADBEEF#32

/-- `META_SIZE`: length of the serialized record. -/
def metaSize : Nat := 20

/-- `ERASED`, the erased-flash sentinel byte. -/
def erased : Byte := 0xFF#8

/-- `BOOT_SIZE`: the bootloader region is 8 KiB. -/
def bootSize : Nat := 8192

/-- `ADDR_W`: width of a flash address (92_eei_decisions.md D11). -/
def addrWidth : Nat := 32

/-- `MAX_LEN`: the largest buffer length the interface can carry (92_eei_decisions.md D8). -/
def maxLen : Nat := 2 ^ 32 - 1

end Sys2Proof.Machine
end

