-- ==== Sys2Proof/Machine/Types.lean ====
section
/-! DEFINITION. The types of the values the FIB works on: regions, error kinds, headers, records, the result latch, the
registers by name, and what the host can do to the block. -/

namespace Sys2Proof.Machine

/-- A region of the target flash (20_memory.md R61), and the application region of a merge (42_layout.md R170). -/
inductive Region where
  | boot
  | bankA
  | bankB
  | data
  | app
  deriving DecidableEq, Repr

/-- The error kinds of 60_exceptions.md R240. `SizeExceeded` carries its two numbers; the others carry none (they are
latched with the numbers 0, 0, R244). -/
inductive CmdError where
  | invalidInputLength
  | sizeExceeded (declared limit : Nat)
  | invalidArgument
  | illegalCommand
  | layoutInvalid
  | operandAbsent
  deriving DecidableEq, Repr

/-- The five fields of a firmware header (30_encoding.md R96). -/
structure Header where
  magic : Word
  version : Word
  declaredSize : Word
  crc32 : Word
  flags : Word
  deriving DecidableEq, Repr

/-- The outcome of `hdr_parse` (41_header.md R150, R151): the two absent cases are distinct outcomes. -/
inductive HdrResult where
  | present (h : Header)
  | absentShort
  | absentMagic (magic : Word)
  deriving DecidableEq, Repr

/-- The header state a merge reports (44_merge.md R224). -/
inductive HdrState where
  | present
  | short
  | badMagic
  deriving DecidableEq, Repr

/-- The bootloader metadata record (43_metadata.md R190). -/
structure MetaRecord where
  flag : Byte
  aSize : Word
  bSize : Word
  aCrc : Word
  bCrc : Word
  deriving DecidableEq, Repr

/-- The entry of one bank in a record (43_metadata.md R191). -/
structure BankEntry where
  size : Word
  crc : Word
  deriving DecidableEq, Repr

/-- The result latch `LAST`, case by case (10_state.md R30). `op` is bits 7:0 of the command word as written. The
numbers `declared` and `limit` of an error stand inside its kind (`CmdError`). -/
inductive Last where
  | idle
  | done (op : Byte)
  | crc (op : Byte) (v : Word)
  | hdr (op : Byte) (h : HdrResult)
  | built (op : Byte) (r : MetaRecord) (s : List Byte)
  | metaParsed (op : Byte) (r : MetaRecord)
  | merged (op : Byte) (m : List Byte) (hs : HdrState)
  | error (op : Byte) (e : CmdError)
  deriving DecidableEq, Repr

/-- One of the two input buffers (10_state.md R27). -/
inductive Buf where
  | in0
  | in1
  deriving DecidableEq, Repr

/-- One input buffer space: `Absent` or `Present(bytes)` (10_state.md R27). `some []` is not `none`. -/
abbrev Memory := Option (List Byte)

/-- The 25 registers by name (10_state.md R33). -/
inductive Reg where
  | cmd
  | status
  | errCode
  | errDeclared
  | errLimit
  | arg0
  | acc
  | res0
  | res1
  | res2
  | res3
  | res4
  | in0Len
  | in1Len
  | inPresent
  | outLen
  | cfgBootBase
  | cfgBootSize
  | cfgBankABase
  | cfgBankBBase
  | cfgBankSize
  | cfgDataBase
  | cfgDataSize
  | cfgFlags
  | cfgAppOffset
  deriving DecidableEq, Repr

/-- What the host, the only other agent (00_scope.md R13), can do to the block. Offsets are byte offsets from `REG_BASE`
and widths are in bytes. -/
inductive HostAction where
  /-- A read of the register space (20_memory.md R66). -/
  | readReg (width off : Nat)
  /-- A write of the register space; a write to `CMD` issues a command (30_encoding.md R90). -/
  | writeReg (width off : Nat) (v : Word)
  /-- `HostLoad(i, b)` (10_state.md R29). -/
  | load (i : Buf) (b : List Byte)
  /-- `HostClear(i)` (10_state.md R29). -/
  | clear (i : Buf)
  /-- `HostReadOut(off, n)` (10_state.md R35). -/
  | readOut (off n : Nat)
  /-- The reset input (70_reset_and_hazards.md R280). -/
  | reset
  deriving DecidableEq, Repr

/-- What a read delivers to the host. -/
inductive Reply where
  | word (v : Word)
  | bytes (b : List Byte)
  deriving DecidableEq, Repr

end Sys2Proof.Machine
end

