-- ==== Sys2Proof/Machine/Layout.lean ====
section
/-! DEFINITION. The Bank Layout Model as pure functions of `CFG` (42_layout.md R170 to R175). Lengths and addresses are
natural numbers and every operation on them is exact (00_scope.md R16). -/

namespace Sys2Proof

/-- `APP_BASE = BANK_A_BASE` (42_layout.md R175, 44_merge.md R222). -/
def Config.appBase (c : Config) : Word := c.bankABase

/-- `APP_SIZE = BANK_SIZE` (42_layout.md R170, 44_merge.md R222). -/
def Config.appSize (c : Config) : Word := c.bankSize

/-- `app_offset = APP_BASE - BOOT_BASE` over the naturals (00_scope.md R8, 42_layout.md R175). It never borrows under
`layoutValid`. -/
def Config.appOffset (c : Config) : Nat := c.appBase.toNat - c.bootBase.toNat

namespace Machine

/-- `region_size` (42_layout.md R170). -/
def regionSize (c : Config) : Region → Nat
  | .boot => bootSize
  | .bankA => c.bankSize.toNat
  | .bankB => c.bankSize.toNat
  | .data => c.dataSize.toNat
  | .app => c.appSize.toNat

/-- The base address of each region (20_memory.md R61). -/
def regionBase (c : Config) : Region → Nat
  | .boot => c.bootBase.toNat
  | .bankA => c.bankABase.toNat
  | .bankB => c.bankBBase.toNat
  | .data => c.dataBase.toNat
  | .app => c.appBase.toNat

/-- The addresses of a region, `[base, base + size)` (20_memory.md R61). -/
def inRegion (c : Config) (r : Region) (a : Nat) : Bool :=
  decide (regionBase c r ≤ a ∧ a < regionBase c r + regionSize c r)

/-- `layout_valid(CFG)`, all sums over the naturals (42_layout.md R171). -/
def layoutValid (c : Config) : Bool :=
  decide (
    (c.bootBase.toNat < c.bankABase.toNat ∧ c.bankABase.toNat < c.bankBBase.toNat ∧
      c.bankBBase.toNat < c.dataBase.toNat) ∧
    c.bootBase.toNat + bootSize ≤ c.bankABase.toNat ∧
    c.bankABase.toNat + c.bankSize.toNat ≤ c.bankBBase.toNat ∧
    c.bankBBase.toNat + c.bankSize.toNat ≤ c.dataBase.toNat ∧
    c.dataBase.toNat + c.dataSize.toNat ≤ 2 ^ addrWidth ∧
    metaSize ≤ c.dataSize.toNat ∧
    c.flagA ≠ c.flagB)

/-- `layout_contiguous(CFG)`, a predicate no rule depends on (42_layout.md R172). -/
def layoutContiguous (c : Config) : Bool :=
  decide (
    c.bootBase.toNat + bootSize = c.bankABase.toNat ∧
    c.bankABase.toNat + c.bankSize.toNat = c.bankBBase.toNat ∧
    c.bankBBase.toNat + c.bankSize.toNat = c.dataBase.toNat)

/-- `fits(n, r)` (42_layout.md R173). -/
def fits (c : Config) (n : Nat) (r : Region) : Except CmdError Unit :=
  if n ≤ regionSize c r then .ok () else .error (.sizeExceeded n (regionSize c r))

/-- The flash address a collaborator writes byte `k` of the merged image to (20_memory.md R62, 44_merge.md R230). -/
def mergedFlashAddr (c : Config) (k : Nat) : Nat := c.bootBase.toNat + k

/-- The flash address of byte `j` of an application image (20_memory.md R62). -/
def appFlashAddr (c : Config) (j : Nat) : Nat := c.appBase.toNat + j

/-- The flash address of byte `k` of the metadata record (20_memory.md R62, 43_metadata.md R203). -/
def recordFlashAddr (c : Config) (k : Nat) : Nat := c.dataBase.toNat + k

end Machine
end Sys2Proof
end

