-- ==== Sys2Proof/Machine/State.lean ====
section
/-! DEFINITION. The architectural state of one FIB, the reasons a step can stop, and the state after reset
(10_state.md R21, R37). The registers `STATUS`, `ERR_*`, `RES0..RES4`, `OUT_LEN`, `IN*_LEN`, `IN_PRESENT` and the output
buffer are views of this state (R31 to R35; Machine/Flags.lean, Machine/Registers.lean), the `CFG_*` registers are views of
the configuration (R33). -/

namespace Sys2Proof.Machine

/-- Reasons a step ends in a fault: there are none. The FIB has no traps, and every failure of a command is an error
outcome latched in `LAST`, that is, a next state (60_exceptions.md R244). -/
inductive Fault where
  deriving DecidableEq, Repr

/-- Reasons a step has no meaning. No command raises one (but an arm not yet written would raise the first): they are
raised by Machine/Host.lean for host actions to which 93_implementation_defined.md assigns the treatment `refuse`. All
are safe: nothing can be proved about the state after them. -/
inductive Refusal where
  /-- Raised by an arm of `exec` whose command has no meaning yet; no arm does. Safe. -/
  | notModelled (mnemonic : String)
  /-- A register access that is not an aligned 32-bit word (U2, 20_memory.md R66). Safe. -/
  | notAlignedWord (width off : Nat)
  /-- A register access at an offset that is not in the register list (U2, 30_encoding.md R111). Safe. -/
  | unmappedOffset (off : Nat)
  /-- A read of a result register the last command did not produce (U1, 10_state.md R34). Safe. -/
  | noResultValue (r : Reg)
  /-- `HostReadOut` where `OUT` does not exist or is shorter (U1, 10_state.md R35). Safe. -/
  | noOutput (off n : Nat)
  /-- `HostLoad` of more than `MAX_LEN` bytes, which the interface cannot carry (U13, 10_state.md R29). Safe. -/
  | bufferTooLong (len : Nat)
  deriving DecidableEq, Repr

/-- The architectural state `(FATAL, ACC, ARG0, IN0, IN1, LAST)` of 10_state.md R21, and the two ends of the host's stream:
`pending` and `replies` are the MODEL'S own fields, since a step of this model takes no argument (DESIGN CHOICE,
notes/assumptions/2.md). -/
structure State where
  /-- `FATAL`: the layout check failed at reset. -/
  fatal : Bool
  /-- `ACC`: the streaming CRC accumulator (R25). -/
  acc : Word
  /-- `ARG0`: the operand register (R26). -/
  arg0 : Word
  /-- `IN0` (R27). -/
  in0 : Memory
  /-- `IN1` (R27). -/
  in1 : Memory
  /-- `LAST`: the result latch (R30). -/
  last : Last
  /-- The host's actions that are still to come, in program order (20_memory.md R71). -/
  pending : List HostAction
  /-- The values reads have delivered to the host, newest first. -/
  replies : List Reply
  deriving DecidableEq, Repr

/-- The state after reset of a block with configuration `c` (10_state.md R37), with nothing asked by the host yet. -/
def State.resetAt (c : Config) : State :=
  { fatal := !layoutValid c
    acc := crcInitial
    arg0 := 0#32
    in0 := none
    in1 := none
    last := .idle
    pending := []
    replies := [] }

/-- The state after reset of this block (10_state.md R37, 70_reset_and_hazards.md R281). -/
def State.reset : State := State.resetAt cfg

end Sys2Proof.Machine
end

