-- ==== Sys2Proof/Machine/Ops.lean ====
section
/-! DEFINITION. The shared operations: byte order and buffer reads, the writes of the state, and the one error entry. -/

namespace Sys2Proof.Machine

/-! ### Byte order (20_memory.md R63) -/

/-- `le32(b0, b1, b2, b3) = b0 | (b1 << 8) | (b2 << 16) | (b3 << 24)`, `b0` the byte at the lowest offset. -/
def le32 (b0 b1 b2 b3 : Byte) : Word :=
  b0.setWidth 32 ||| (b1.setWidth 32 <<< 8) ||| (b2.setWidth 32 <<< 16) ||| (b3.setWidth 32 <<< 24)

/-- `bytes_le32(v)` (00_scope.md section 4). -/
def bytesLe32 (v : Word) : List Byte :=
  [v.extractLsb' 0 8, v.extractLsb' 8 8, v.extractLsb' 16 8, v.extractLsb' 24 8]

/-! ### Buffer reads (00_scope.md section 4, `S[i]` and `MemRead`) -/

/-- Byte `i` of a byte sequence. No rule reads at or beyond the end (20_memory.md R75), where this is `0`; see
notes/assumptions/5.md. -/
def byteAt (b : List Byte) (i : Nat) : Byte := b.getD i 0#8

/-- `MemRead(S, off, 4)`: the little-endian word at `off` (20_memory.md R63, R64). -/
def wordAt (b : List Byte) (off : Nat) : Word :=
  le32 (byteAt b off) (byteAt b (off + 1)) (byteAt b (off + 2)) (byteAt b (off + 3))

/-- The words at offsets `0, 4, 8, ...` of a byte sequence (20_memory.md R75 (b)); up to three bytes at the end that do
not make a word are left out (no rule calls it on such a sequence). -/
def wordsLe : List Byte → List Word
  | b0 :: b1 :: b2 :: b3 :: rest => le32 b0 b1 b2 b3 :: wordsLe rest
  | _ => []

/-! ### Input buffers -/

/-- An input buffer is well-formed when its length is at most `MAX_LEN` (10_state.md R27). -/
def Memory.wf : Memory → Bool
  | none => true
  | some b => decide (b.length ≤ maxLen)

/-- The length register's view of a buffer: 0 when `Absent` (10_state.md R33). -/
def Memory.len : Memory → Nat
  | none => 0
  | some b => b.length

/-- One byte of a buffer as its owner sees it: no byte where the buffer is absent or ends before (20_memory.md R60). -/
def Memory.byte? (m : Memory) (k : Nat) : Option Byte := m.bind fun b => b[k]?

/-- Read an input buffer. -/
def State.buf (s : State) : Buf → Memory
  | .in0 => s.in0
  | .in1 => s.in1

/-- Replace an input buffer (10_state.md R29). -/
def State.setBuf (s : State) (i : Buf) (m : Memory) : State :=
  match i with
  | .in0 => { s with in0 := m }
  | .in1 => { s with in1 := m }

/-! ### The other writes of the state -/

/-- `x[ACC] <- v`; only `CRC.INIT` and `CRC.WORD` use it (10_state.md R25). -/
def State.setAcc (s : State) (v : Word) : State := { s with acc := v }

/-- `x[ARG0] <- v`; only the host uses it (10_state.md R26). -/
def State.setArg0 (s : State) (v : Word) : State := { s with arg0 := v }

/-- `LAST <- l`, "written as a whole by every command" (10_state.md R30). -/
def State.latch (s : State) (l : Last) : State := { s with last := l }

/-- Deliver a value to the host. -/
def State.reply (s : State) (r : Reply) : State := { s with replies := r :: s.replies }

/-! ### Error entry -/

/-- `raise Kind(info)`: `LAST <- Error(op, Kind, d, l)` and nothing else (60_exceptions.md R244). There is no return
operation (R245): the next command overwrites `LAST`. -/
def State.raise (s : State) (op : Byte) (e : CmdError) : State := s.latch (.error op e)

/-- The end of a command whose checks and result are `r`: latch the result, or take the error. -/
def State.finish (s : State) (op : Byte) (r : Except CmdError Last) : State :=
  match r with
  | .ok l => s.latch l
  | .error e => s.raise op e

end Sys2Proof.Machine
end

