-- ==== Sys2Proof/Machine/Operands.lean ====
section
/-! DEFINITION. The operand forms of the commands: what a selector selects, and the checks made before an operand is read
(30_encoding.md R93; 60_exceptions.md R246, R248, R249). -/

namespace Sys2Proof.Machine

/-- Buffer selector: 0 = `IN0`, 1 = `IN1`, anything else `InvalidArgument` (30_encoding.md R93). -/
def bufOperand (sel : Nat) : Except CmdError Buf :=
  if sel = 0 then .ok .in0 else if sel = 1 then .ok .in1 else .error .invalidArgument

/-- Region selector of `FITS`: 0 bootloader, 1 bank A, 2 bank B, 3 data, anything else `InvalidArgument` (R93). -/
def regionOperand (sel : Nat) : Except CmdError Region :=
  if sel = 0 then .ok .boot else if sel = 1 then .ok .bankA else if sel = 2 then .ok .bankB
  else if sel = 3 then .ok .data else .error .invalidArgument

/-- Bank selector of `META.BUILD`: 0 and 1 are legal, anything else `InvalidArgument` (R93). -/
def bankOperand (sel : Nat) : Except CmdError Unit :=
  if sel > 1 then .error .invalidArgument else .ok ()

/-- A layout-dependent command refuses while `FATAL = 1` (60_exceptions.md R248). -/
def requireLayout (s : State) : Except CmdError Unit :=
  if s.fatal then .error .layoutInvalid else .ok ()

/-- A required operand must be present (60_exceptions.md R249). -/
def requirePresent : Memory → Except CmdError (List Byte)
  | none => .error .operandAbsent
  | some b => .ok b

/-- The operand of `CRC.COMPUTE`, `HDR.PARSE` and `META.PARSE`: the selector is examined first, then presence
(60_exceptions.md R246). -/
def bufferOperand (s : State) (sel : Nat) : Except CmdError (List Byte) := do
  let i ← bufOperand sel
  requirePresent (s.buf i)

end Sys2Proof.Machine
end

