-- ==== Sys2Proof/Machine/Crc.lean ====
section
/-! DEFINITION. The Checksum Engine: its pure functions (40_crc.md R130 to R133) and the commands `CRC.INIT`, `CRC.WORD`,
`CRC.COMPUTE` (R134 to R136). None of them reads the configuration (60_exceptions.md R248). -/

namespace Sys2Proof.Machine

/-- One round: bit 31 is tested before the shift, and the bit shifted out is dropped (40_crc.md R130). -/
def crcRound (a : Word) : Word := if a.msb then (a <<< 1) ^^^ crcPoly else a <<< 1

/-- `n` rounds. -/
def crcRounds : Nat → Word → Word
  | 0, a => a
  | n + 1, a => crcRounds n (crcRound a)

/-- One word: the whole word is XORed in before the first of the 32 rounds (40_crc.md R131). -/
def crcWord (a w : Word) : Word := crcRounds crcRoundCount (a ^^^ w)

/-- The words of a buffer folded into an accumulator in ascending order (40_crc.md R132). -/
def crcFold (a : Word) (ws : List Word) : Word := ws.foldl crcWord a

/-- `crc_compute(d)`: the length is tested before any word is processed; the accumulator is the call's own
(40_crc.md R132, 10_state.md R36). -/
def crcCompute (d : List Byte) : Except CmdError Word :=
  if d.length % 4 ≠ 0 then .error .invalidInputLength else .ok (crcFold crcInitial (wordsLe d))

/-- The state after `CRC.INIT` (40_crc.md R134). -/
def crcInitAt (s : State) : State := (s.setAcc crcInitial).latch (.done opcCrcInit)

/-- The state after `CRC.WORD` (40_crc.md R135). -/
def crcWordAt (s : State) : State := (s.setAcc (crcWord s.acc s.arg0)).latch (.done opcCrcWord)

/-- The checks and the result of `CRC.COMPUTE sel`, in the order of 40_crc.md R136. -/
def crcComputeOutcome (sel : Nat) (s : State) : Except CmdError Last := do
  let b ← bufferOperand s sel
  let v ← crcCompute b
  return .crc opcCrcCompute v

/-- The state after `CRC.COMPUTE sel` (40_crc.md R136); `ACC` is neither read nor written. -/
def crcComputeAt (sel : Nat) (s : State) : State := s.finish opcCrcCompute (crcComputeOutcome sel s)

/-- `CRC.INIT` (40_crc.md R134). -/
def execCrcInit (s : State) : Host.Outcome State Fault Refusal := .next (crcInitAt s)

/-- `CRC.WORD` (40_crc.md R135). -/
def execCrcWord (s : State) : Host.Outcome State Fault Refusal := .next (crcWordAt s)

/-- `CRC.COMPUTE sel` (40_crc.md R136). -/
def execCrcCompute (sel : Nat) (s : State) : Host.Outcome State Fault Refusal := .next (crcComputeAt sel s)

end Sys2Proof.Machine
end

