-- ==== Sys2Proof/Machine/Fits.lean ====
section
/-! DEFINITION. The command `FITS` of the Bank Layout Model (42_layout.md R176). The pure functions stand in
Machine/Layout.lean. -/

namespace Sys2Proof.Machine

/-- The checks and the result of `FITS region` under configuration `c`, in the order of 42_layout.md R176. -/
def fitsOutcome (c : Config) (sel : Nat) (s : State) : Except CmdError Last := do
  let r ← regionOperand sel
  requireLayout s
  fits c s.arg0.toNat r
  return .done opcFits

/-- The state after `FITS region` (42_layout.md R176). -/
def fitsAt (c : Config) (sel : Nat) (s : State) : State := s.finish opcFits (fitsOutcome c sel s)

/-- `FITS region` (42_layout.md R176). -/
def execFits (sel : Nat) (s : State) : Host.Outcome State Fault Refusal := .next (fitsAt cfg sel s)

end Sys2Proof.Machine
end

