-- ==== Sys2Proof/Machine/Header.lean ====
section
/-! DEFINITION. The Firmware Header Codec: `hdr_parse` (41_header.md R150 to R152), the command `HDR.PARSE` (R153), and
the functions of the `version` field that the host applies to `RES1` (30_encoding.md R97, R99; 41_header.md R156). -/

namespace Sys2Proof.Machine

/-- The five little-endian words at offsets 0, 4, 8, 12, 16 (30_encoding.md R96). -/
def headerFields (img : List Byte) : Header :=
  { magic := wordAt img 0
    version := wordAt img 4
    declaredSize := wordAt img 8
    crc32 := wordAt img 12
    flags := wordAt img 16 }

/-- `hdr_parse(img)`: the length test comes first, then the magic; nothing else is checked (41_header.md R150, R152). -/
def hdrParse (img : List Byte) : HdrResult :=
  if img.length < hdrSize then .absentShort
  else if (headerFields img).magic ≠ hdrMagic then .absentMagic (headerFields img).magic
  else .present (headerFields img)

/-- The checks and the result of `HDR.PARSE sel`, in the order of 41_header.md R153. -/
def hdrParseOutcome (sel : Nat) (s : State) : Except CmdError Last := do
  let b ← bufferOperand s sel
  return .hdr opcHdrParse (hdrParse b)

/-- The state after `HDR.PARSE sel` (41_header.md R153). -/
def hdrParseAt (sel : Nat) (s : State) : State := s.finish opcHdrParse (hdrParseOutcome sel s)

/-- `HDR.PARSE sel` (41_header.md R153). -/
def execHdrParse (sel : Nat) (s : State) : Host.Outcome State Fault Refusal := .next (hdrParseAt sel s)

/-! ### Derived outputs: functions of `version`, no register holds them -/

/-- `major = version[23:16]` (30_encoding.md R97). -/
def versionMajor (v : Word) : Nat := (v.extractLsb' 16 8).toNat

/-- `minor = version[15:8]` (30_encoding.md R97). -/
def versionMinor (v : Word) : Nat := (v.extractLsb' 8 8).toNat

/-- `patch = version[7:0]` (30_encoding.md R97). -/
def versionPatch (v : Word) : Nat := (v.extractLsb' 0 8).toNat

/-- `version_str`: the three numbers in decimal without leading zeros (30_encoding.md R99). -/
def versionStr (v : Word) : String :=
  "v" ++ toString (versionMajor v) ++ "." ++ toString (versionMinor v) ++ "." ++ toString (versionPatch v)

/-- The version string of a parsed header; "when the header is absent there is no `version_str`" (41_header.md R156). -/
def HdrResult.versionStr? : HdrResult → Option String
  | .present h => some (versionStr h.version)
  | .absentShort => none
  | .absentMagic _ => none

end Sys2Proof.Machine
end

