-- ==== Sys2Proof/Machine/Flags.lean ====
section
/-! DEFINITION. The `STATUS` and `ERR_*` registers as views of `LAST` and `FATAL` (10_state.md R31, R32), field by field. -/

namespace Sys2Proof.Machine

/-- `DONE` (R31, bit 0). -/
def Last.isDone : Last → Bool
  | .idle => false
  | _ => true

/-- `ERR` (R31, bit 1). -/
def Last.isError : Last → Bool
  | .error _ _ => true
  | _ => false

/-- `WARN` (R31, bit 2): a merge whose application has no usable header. -/
def Last.isWarn : Last → Bool
  | .merged _ _ hs => decide (hs ≠ .present)
  | _ => false

/-- The code of a header state in `HDR` (R31, bits 5:4). -/
def HdrState.code : HdrState → BitVec 2
  | .present => 1#2
  | .short => 2#2
  | .badMagic => 3#2

/-- A parse reduced to its header state (44_merge.md R224). -/
def HdrResult.state : HdrResult → HdrState
  | .present _ => .present
  | .absentShort => .short
  | .absentMagic _ => .badMagic

/-- `HDR` (R31, bits 5:4). -/
def Last.hdrField : Last → BitVec 2
  | .hdr _ h => h.state.code
  | .merged _ _ hs => hs.code
  | _ => 0#2

/-- `OUT_VALID` (R31, bit 6). -/
def Last.outValid : Last → Bool
  | .built _ _ _ => true
  | .merged _ _ _ => true
  | _ => false

/-- `OP` (R31, bits 15:8). -/
def Last.opField : Last → Byte
  | .idle => 0#8
  | .done op => op
  | .crc op _ => op
  | .hdr op _ => op
  | .built op _ _ => op
  | .metaParsed op _ => op
  | .merged op _ _ => op
  | .error op _ => op

/-- A word with `b` in bit `k` and 0 elsewhere. -/
def bitWord (b : Bool) (k : Nat) : Word := (BitVec.ofBool b).setWidth 32 <<< k

/-- The word `STATUS` reads as: `DONE` in bit 0, `ERR` in bit 1, `WARN` in bit 2, `FATAL` in bit 3, `HDR` in bits 5:4,
`OUT_VALID` in bit 6, `OP` in bits 15:8; "bits not listed read 0" (10_state.md R31). -/
def statusWord (s : State) : Word :=
  bitWord s.last.isDone 0 ||| bitWord s.last.isError 1 ||| bitWord s.last.isWarn 2 ||| bitWord s.fatal 3 |||
    (s.last.hdrField.setWidth 32 <<< 4) ||| bitWord s.last.outValid 6 ||| (s.last.opField.setWidth 32 <<< 8)

/-- The code of an error kind (30_encoding.md R108). -/
def CmdError.code : CmdError → Word
  | .invalidInputLength => 1#32
  | .sizeExceeded _ _ => 2#32
  | .invalidArgument => 3#32
  | .illegalCommand => 4#32
  | .layoutInvalid => 5#32
  | .operandAbsent => 6#32

/-- The number `declared` of an error, 0 for every kind but `SizeExceeded` (60_exceptions.md R244). -/
def CmdError.declared : CmdError → Nat
  | .sizeExceeded d _ => d
  | _ => 0

/-- The number `limit` of an error, 0 for every kind but `SizeExceeded` (60_exceptions.md R244). -/
def CmdError.limit : CmdError → Nat
  | .sizeExceeded _ l => l
  | _ => 0

/-- `ERR_CODE` (10_state.md R32). -/
def Last.errCode : Last → Word
  | .error _ e => e.code
  | _ => 0#32

/-- `ERR_DECLARED` (10_state.md R32). -/
def Last.errDeclared : Last → Word
  | .error _ e => BitVec.ofNat 32 e.declared
  | _ => 0#32

/-- `ERR_LIMIT` (10_state.md R32). -/
def Last.errLimit : Last → Word
  | .error _ e => BitVec.ofNat 32 e.limit
  | _ => 0#32

end Sys2Proof.Machine
end

