-- ==== Sys2Proof/Machine/Merge.lean ====
section
/-! DEFINITION. The Image Merge Engine: `merge` (44_merge.md R220 to R223) and the command `MERGE` (R225). It computes no
checksum (R226). -/

namespace Sys2Proof.Machine

/-- `merge(boot, app)`: the bootloader's budget, then the application's; the output is the bootloader, `0xFF` up to
`app_offset`, and the application (44_merge.md R220, R221; 30_encoding.md R103). -/
def merge (c : Config) (boot app : List Byte) : Except CmdError (List Byte) := do
  fits c boot.length .boot
  fits c app.length .app
  return boot ++ List.replicate (c.appOffset - boot.length) erased ++ app

/-- The checks and the result of `MERGE` under configuration `c`, in the order of 44_merge.md R225. The header inspection
is advisory: it reaches the latch only (R224). -/
def mergeOutcome (c : Config) (s : State) : Except CmdError Last := do
  requireLayout s
  let boot ← requirePresent s.in0
  let app ← requirePresent s.in1
  let m ← merge c boot app
  return .merged opcMerge m (hdrParse app).state

/-- The state after `MERGE` (44_merge.md R225). -/
def mergeAt (c : Config) (s : State) : State := s.finish opcMerge (mergeOutcome c s)

/-- `MERGE` (44_merge.md R225). -/
def execMerge (s : State) : Host.Outcome State Fault Refusal := .next (mergeAt cfg s)

end Sys2Proof.Machine
end

