-- ==== Sys2Proof/Machine/Metadata.lean ====
section
/-! DEFINITION. The Bootloader Metadata Codec: its pure functions (43_metadata.md R191 to R195, R198) and the commands
`META.BUILD` (R196) and `META.PARSE` (R201). -/

namespace Sys2Proof.Machine

/-- The entry of one bank: the budget is checked before the checksum, and the checksum covers the image as it is
(43_metadata.md R191, R193). -/
def bankEntry (c : Config) (img : Memory) (r : Region) : Except CmdError BankEntry :=
  match img with
  | none => .ok { size := 0#32, crc := crcInitial }
  | some b => do
    fits c b.length r
    let v ← crcCompute b
    return { size := BitVec.ofNat 32 b.length, crc := v }

/-- `meta_build(sel, a, b)`: selector, then bank A, then bank B (43_metadata.md R192). -/
def metaBuild (c : Config) (sel : Nat) (a b : Memory) : Except CmdError MetaRecord := do
  bankOperand sel
  let ea ← bankEntry c a .bankA
  let eb ← bankEntry c b .bankB
  return { flag := if sel = 0 then c.flagA else c.flagB
           aSize := ea.size
           bSize := eb.size
           aCrc := ea.crc
           bCrc := eb.crc }

/-- `meta_serialize(r)`: 20 bytes, the reserved bytes 1 to 3 written as zero (43_metadata.md R195, 30_encoding.md R102). -/
def metaSerialize (r : MetaRecord) : List Byte :=
  [r.flag, 0#8, 0#8, 0#8] ++ bytesLe32 r.aSize ++ bytesLe32 r.bSize ++ bytesLe32 r.aCrc ++ bytesLe32 r.bCrc

/-- A record is valid when its flag is one of the two sentinels (43_metadata.md R190). -/
def MetaRecord.valid (c : Config) (r : MetaRecord) : Bool := decide (r.flag = c.flagA ∨ r.flag = c.flagB)

/-- `meta_parse(s)`: the length, then the flag byte; bytes 1 to 3 are ignored (43_metadata.md R198). -/
def metaParse (c : Config) (s : List Byte) : Except CmdError MetaRecord :=
  if s.length ≠ metaSize then .error .invalidInputLength
  else if byteAt s 0 ≠ c.flagA ∧ byteAt s 0 ≠ c.flagB then .error .invalidArgument
  else .ok { flag := byteAt s 0
             aSize := wordAt s 4
             bSize := wordAt s 8
             aCrc := wordAt s 12
             bCrc := wordAt s 16 }

/-- The checks and the result of `META.BUILD bank` under configuration `c`, in the order of 43_metadata.md R196. -/
def metaBuildOutcome (c : Config) (sel : Nat) (s : State) : Except CmdError Last := do
  bankOperand sel
  requireLayout s
  let r ← metaBuild c sel s.in0 s.in1
  return .built opcMetaBuild r (metaSerialize r)

/-- The state after `META.BUILD bank` (43_metadata.md R196). -/
def metaBuildAt (c : Config) (sel : Nat) (s : State) : State := s.finish opcMetaBuild (metaBuildOutcome c sel s)

/-- The checks and the result of `META.PARSE sel` under configuration `c`, in the order of 43_metadata.md R201. -/
def metaParseOutcome (c : Config) (sel : Nat) (s : State) : Except CmdError Last := do
  let b ← bufferOperand s sel
  let r ← metaParse c b
  return .metaParsed opcMetaParse r

/-- The state after `META.PARSE sel` (43_metadata.md R201); not blocked by `FATAL`. -/
def metaParseAt (c : Config) (sel : Nat) (s : State) : State := s.finish opcMetaParse (metaParseOutcome c sel s)

/-- `META.BUILD bank` (43_metadata.md R196). -/
def execMetaBuild (sel : Nat) (s : State) : Host.Outcome State Fault Refusal := .next (metaBuildAt cfg sel s)

/-- `META.PARSE sel` (43_metadata.md R201). -/
def execMetaParse (sel : Nat) (s : State) : Host.Outcome State Fault Refusal := .next (metaParseAt cfg sel s)

end Sys2Proof.Machine
end

