-- ==== Sys2Proof/Machine/Dispatch.lean ====
section
/-! DEFINITION. One arm per command: the state is the one before the command, the outcome the one after it. -/

namespace Sys2Proof.Machine

def exec (i : Instr) (s : State) : Host.Outcome State Fault Refusal :=
  match i with
  | .crcInit => Sys2Proof.Machine.execCrcInit s
  | .crcWord => Sys2Proof.Machine.execCrcWord s
  | .crcCompute sel => Sys2Proof.Machine.execCrcCompute sel s
  | .hdrParse sel => Sys2Proof.Machine.execHdrParse sel s
  | .fits sel => Sys2Proof.Machine.execFits sel s
  | .metaBuild sel => Sys2Proof.Machine.execMetaBuild sel s
  | .metaParse sel => Sys2Proof.Machine.execMetaParse sel s
  | .merge => Sys2Proof.Machine.execMerge s

end Sys2Proof.Machine
end

