-- ==== Sys2Proof/Machine/Registers.lean ====
section
/-! DEFINITION. The register space (10_state.md R33 to R35): which offset names which register, what each register reads
as, the output buffer, and which register a write changes. -/

namespace Sys2Proof.Machine

/-- The registers in the order of their word offsets `0x00, 0x04, ..., 0x60` (10_state.md R33). -/
def registerList : List Reg :=
  [.cmd, .status, .errCode, .errDeclared, .errLimit, .arg0, .acc,                      -- 0x00 to 0x18
   .res0, .res1, .res2, .res3, .res4,                                                  -- 0x1C to 0x2C
   .in0Len, .in1Len, .inPresent, .outLen,                                              -- 0x30 to 0x3C
   .cfgBootBase, .cfgBootSize, .cfgBankABase, .cfgBankBBase, .cfgBankSize,             -- 0x40 to 0x50
   .cfgDataBase, .cfgDataSize, .cfgFlags, .cfgAppOffset]                               -- 0x54 to 0x60

/-- The register at a byte offset from `REG_BASE`, where there is one (10_state.md R33). -/
def Reg.ofOffset (off : Nat) : Option Reg := if off % 4 = 0 then registerList[off / 4]? else none

/-- The byte offset of `CMD` (10_state.md R33). -/
def cmdOffset : Nat := 0x00

/-- The byte offset of `ARG0` (10_state.md R33). -/
def arg0Offset : Nat := 0x14

/-- The five words of a record as `RES0` to `RES4` show them (10_state.md R34). -/
def MetaRecord.words (r : MetaRecord) : List Word := [r.flag.setWidth 32, r.aSize, r.bSize, r.aCrc, r.bCrc]

/-- The values `RES0, RES1, ...` hold, from `RES0` on; the cells after the list's end have no value (10_state.md R34). -/
def Last.results (c : Config) : Last → List Word
  | .idle => []
  | .done _ => []
  | .error _ _ => []
  | .crc _ v => [v]
  | .hdr _ (.present h) => [h.magic, h.version, h.declaredSize, h.crc32, h.flags]
  | .hdr _ (.absentMagic m) => [m]
  | .hdr _ .absentShort => []
  | .built _ r _ => r.words
  | .metaParsed _ r => r.words
  | .merged _ _ _ => [BitVec.ofNat 32 c.appOffset]

/-- The output buffer `OUT`, where it exists (10_state.md R35). -/
def Last.out : Last → Option (List Byte)
  | .built _ _ s => some s
  | .merged _ m _ => some m
  | _ => none

/-- `OUT_LEN`: the length of `OUT`, 0 where it does not exist (10_state.md R35). -/
def Last.outLen (l : Last) : Nat :=
  match l.out with
  | some b => b.length
  | none => 0

/-- `IN_PRESENT`: bit 0 = `present(IN0)`, bit 1 = `present(IN1)` (10_state.md R33). -/
def presentWord (s : State) : Word :=
  bitWord s.in0.isSome 0 ||| bitWord s.in1.isSome 1

/-- What a register reads as (10_state.md R33); `none` for a result cell without value (R34). `CMD` reads 0
(30_encoding.md R111). -/
def readReg (c : Config) (s : State) : Reg → Option Word
  | .cmd => some 0#32
  | .status => some (statusWord s)
  | .errCode => some s.last.errCode
  | .errDeclared => some s.last.errDeclared
  | .errLimit => some s.last.errLimit
  | .arg0 => some s.arg0
  | .acc => some s.acc
  | .res0 => (s.last.results c)[0]?
  | .res1 => (s.last.results c)[1]?
  | .res2 => (s.last.results c)[2]?
  | .res3 => (s.last.results c)[3]?
  | .res4 => (s.last.results c)[4]?
  | .in0Len => some (BitVec.ofNat 32 (Memory.len s.in0))
  | .in1Len => some (BitVec.ofNat 32 (Memory.len s.in1))
  | .inPresent => some (presentWord s)
  | .outLen => some (BitVec.ofNat 32 s.last.outLen)
  | .cfgBootBase => some c.bootBase
  | .cfgBootSize => some (BitVec.ofNat 32 bootSize)
  | .cfgBankABase => some c.bankABase
  | .cfgBankBBase => some c.bankBBase
  | .cfgBankSize => some c.bankSize
  | .cfgDataBase => some c.dataBase
  | .cfgDataSize => some c.dataSize
  | .cfgFlags => some (c.flagA.setWidth 32 ||| (c.flagB.setWidth 32 <<< 8))
  | .cfgAppOffset => some (c.appBase - c.bootBase)

/-- Can a write of the register change the state? Only `CMD` and `ARG0` are writable (10_state.md R33); a write to any
other register is ignored (30_encoding.md R111). -/
def Reg.writable : Reg → Bool
  | .cmd => true
  | .arg0 => true
  | _ => false

end Sys2Proof.Machine
end

