-- ==== Sys2Proof/Machine/Host.lean ====
section
/-! DEFINITION. What each host action does (10_state.md R29, R33, R35; 30_encoding.md R90, R111; 70_reset_and_hazards.md
R280), and one step of the machine: the next action of the host's stream, carried out to completion before the one after
it (20_memory.md R71, 70_reset_and_hazards.md R288). The functions take the configuration and the meaning of a command
as arguments; Machine/Step.lean gives them the block's own. -/

namespace Sys2Proof.Machine

/-- A write of `w` to `CMD`: the command it decodes to, or `raise IllegalCommand` with `op` = bits 7:0 of the word
(30_encoding.md R91, 60_exceptions.md R247). -/
def issue (run : Instr → State → Host.Outcome State Fault Refusal) (w : Word) (s : State) :
    Host.Outcome State Fault Refusal :=
  match decode w with
  | .ok i => run i s
  | .error _ => .next (s.raise (fieldOpc w) .illegalCommand)

/-- The register a host access names: it is one aligned 32-bit word at an offset of the register list
(20_memory.md R66, 30_encoding.md R111). -/
def accessReg (width off : Nat) : Except Refusal Reg :=
  if width ≠ 4 ∨ off % 4 ≠ 0 then .error (.notAlignedWord width off)
  else match Reg.ofOffset off with
    | some r => .ok r
    | none => .error (.unmappedOffset off)

/-- A host read: the value is delivered and nothing else changes (20_memory.md R68). -/
def hostRead (c : Config) (width off : Nat) (s : State) : Host.Outcome State Fault Refusal :=
  match accessReg width off with
  | .error r => .refused r
  | .ok reg =>
    match readReg c s reg with
    | some v => .next (s.reply (.word v))
    | none => .refused (.noResultValue reg)

/-- A host write: `CMD` issues a command, `ARG0` takes the value, any other register ignores it (30_encoding.md R90, R111). -/
def hostWrite (run : Instr → State → Host.Outcome State Fault Refusal) (width off : Nat) (v : Word) (s : State) :
    Host.Outcome State Fault Refusal :=
  match accessReg width off with
  | .error r => .refused r
  | .ok .cmd => issue run v s
  | .ok .arg0 => .next (s.setArg0 v)
  | .ok _ => .next s

/-- `HostLoad(i, b)`, for `len(b) <= MAX_LEN` (10_state.md R29). -/
def hostLoad (i : Buf) (b : List Byte) (s : State) : Host.Outcome State Fault Refusal :=
  if b.length ≤ maxLen then .next (s.setBuf i (some b)) else .refused (.bufferTooLong b.length)

/-- `HostReadOut(off, n)`, "defined only when `STATUS.OUT_VALID = 1` and `off + n <= OUT_LEN`" (10_state.md R35). -/
def hostReadOut (off n : Nat) (s : State) : Host.Outcome State Fault Refusal :=
  match s.last.out with
  | some b => if off + n ≤ b.length then .next (s.reply (.bytes ((b.drop off).take n))) else .refused (.noOutput off n)
  | none => .refused (.noOutput off n)

/-- The reset input: the state of 10_state.md R37; the host's stream and what it was told are outside the block. -/
def hostReset (c : Config) (s : State) : State :=
  { State.resetAt c with pending := s.pending, replies := s.replies }

/-- One host action. -/
def hostAct (c : Config) (run : Instr → State → Host.Outcome State Fault Refusal) (a : HostAction) (s : State) :
    Host.Outcome State Fault Refusal :=
  match a with
  | .readReg width off => hostRead c width off s
  | .writeReg width off v => hostWrite run width off v s
  | .load i b => hostLoad i b s
  | .clear i => .next (s.setBuf i none)
  | .readOut off n => hostReadOut off n s
  | .reset => .next (hostReset c s)

/-- One step: the first pending action is taken from the stream and carried out. With nothing pending the block is at
rest, "nothing is pending after the last command" (70_reset_and_hazards.md R294), and the state stays as it is. -/
def stepWith (c : Config) (run : Instr → State → Host.Outcome State Fault Refusal) (s : State) :
    Host.Outcome State Fault Refusal :=
  match s.pending with
  | [] => .next s
  | a :: rest => hostAct c run a { s with pending := rest }

/-- Put a write of the word `w` to `CMD` at the front of the host's stream. -/
def State.prependCommand (s : State) (w : Word) : State :=
  { s with pending := .writeReg 4 cmdOffset w :: s.pending }

end Sys2Proof.Machine
end

