-- ==== Sys2Proof/Machine/Step.lean ====
section
/-! DEFINITION. One step of this block, and how a command word of the opcode table comes to be the next step. -/

namespace Sys2Proof.Machine

/-- One step of the block with its own configuration and its own commands. -/
def step (s : State) : Host.Outcome State Fault Refusal := stepWith cfg exec s

/-- `s` with the command word `w` as the host's very next action, a write to `CMD` (10_state.md R24: "the next command is
whatever the host writes next to `CMD`"; notes/assumptions/3.md). -/
def State.withFetchWord (s : State) (nbits w : Nat) : State := s.prependCommand (BitVec.ofNat 32 (w % 2 ^ nbits))

end Sys2Proof.Machine
end

