-- ==== Sys2Proof/Machine/Command.lean ====
section
/-! DEFINITION. The commands as a function of the configuration: "a model takes `CFG` as an argument of the machine"
(00_scope.md R7). `exec` is this function at the block's own `cfg` (Laws/Exec.lean proves it); at a fixture it is what the
spec's vectors are checked against. -/

namespace Sys2Proof.Machine

/-- The state after a command of a block with configuration `c`. Every command ends in a next state, with a result or an
error latched (70_reset_and_hazards.md R292, 60_exceptions.md R244). -/
def commandAt (c : Config) (i : Instr) (s : State) : State :=
  match i with
  | .crcInit => crcInitAt s
  | .crcWord => crcWordAt s
  | .crcCompute sel => crcComputeAt sel s
  | .hdrParse sel => hdrParseAt sel s
  | .fits sel => fitsAt c sel s
  | .metaBuild sel => metaBuildAt c sel s
  | .metaParse sel => metaParseAt c sel s
  | .merge => mergeAt c s

end Sys2Proof.Machine
end

