-- ==== Sys2Proof/Safety.lean ====
section
/-! DEFINITION. The terms claims use: what a consistent state is, which host actions have a defined effect, and the host's
actions for a streaming checksum. -/

namespace Sys2Proof.Machine

/-- Which command can latch which error kind, and with what numbers (the "raised by" column of 60_exceptions.md R240).
`IllegalCommand` carries the low byte of any word (R247). -/
def CmdError.consistent (fatal : Bool) (op : Byte) : CmdError → Prop
  | .invalidInputLength => op = opcCrcCompute ∨ op = opcMetaBuild ∨ op = opcMetaParse
  | .sizeExceeded d l =>
      (op = opcFits ∨ op = opcMetaBuild ∨ op = opcMerge) ∧ fatal = false ∧ l < d ∧ d ≤ maxLen
  | .invalidArgument =>
      op = opcCrcCompute ∨ op = opcHdrParse ∨ op = opcFits ∨ op = opcMetaBuild ∨ op = opcMetaParse
  | .illegalCommand => True
  | .layoutInvalid => (op = opcFits ∨ op = opcMetaBuild ∨ op = opcMerge) ∧ fatal = true
  | .operandAbsent => op = opcCrcCompute ∨ op = opcHdrParse ∨ op = opcMetaParse ∨ op = opcMerge

/-- A parse result agrees with the magic it carries (41_header.md R152). -/
def HdrResult.consistent : HdrResult → Prop
  | .present h => h.magic = hdrMagic
  | .absentShort => True
  | .absentMagic m => m ≠ hdrMagic

/-- A record `META.BUILD` can build: a legal flag, and sizes that are multiples of 4 within the bank
(43_metadata.md R190, R191, R194). -/
def MetaRecord.buildable (c : Config) (r : MetaRecord) : Prop :=
  r.valid c = true ∧ r.aSize.toNat % 4 = 0 ∧ r.bSize.toNat % 4 = 0 ∧
    r.aSize.toNat ≤ c.bankSize.toNat ∧ r.bSize.toNat ≤ c.bankSize.toNat

/-- What the result latch can hold in a block with configuration `c` (10_state.md R30): each case carries the opcode of a
command that writes it, and a layout-dependent result exists only while `FATAL = 0`. -/
def Last.consistent (c : Config) (fatal : Bool) : Last → Prop
  | .idle => True
  | .done op => op = opcCrcInit ∨ op = opcCrcWord ∨ (op = opcFits ∧ fatal = false)
  | .crc op _ => op = opcCrcCompute
  | .hdr op h => op = opcHdrParse ∧ h.consistent
  | .built op r s => op = opcMetaBuild ∧ fatal = false ∧ r.buildable c ∧ s = metaSerialize r
  | .metaParsed op r => op = opcMetaParse ∧ r.valid c = true
  | .merged op m _ =>
      op = opcMerge ∧ fatal = false ∧ c.appOffset ≤ m.length ∧ m.length ≤ c.appOffset + c.appSize.toNat
  | .error op e => e.consistent fatal op

/-- The invariant of a block with configuration `c`: `FATAL` is the negation of the layout check (10_state.md R37, never
changed after, R21), no buffer is longer than `MAX_LEN` (R27), and the latch is consistent (R30). -/
structure Inv (c : Config) (s : State) : Prop where
  fatal_eq : s.fatal = !layoutValid c
  in0_wf : Memory.wf s.in0 = true
  in1_wf : Memory.wf s.in1 = true
  last_ok : s.last.consistent c s.fatal

/-- Has the host action a defined effect in `s`? The others are the cases U1, U2 and U13 of
93_implementation_defined.md. -/
def HostAction.defined (c : Config) (s : State) : HostAction → Bool
  | .readReg width off =>
    match accessReg width off with
    | .ok reg => (Machine.readReg c s reg).isSome
    | .error _ => false
  | .writeReg width off _ =>
    match accessReg width off with
    | .ok _ => true
    | .error _ => false
  | .load _ b => decide (b.length ≤ maxLen)
  | .clear _ => true
  | .readOut off n =>
    match s.last.out with
    | some b => decide (off + n ≤ b.length)
    | none => false
  | .reset => true

/-- Does the host action write `LAST`? Only a command and reset do (10_state.md R29, R30). -/
def HostAction.replacesLast : HostAction → Bool
  | .writeReg width off _ => decide (accessReg width off = .ok .cmd)
  | .reset => true
  | _ => false

/-- What a buffer selector selects (30_encoding.md R93). -/
def selectsBuf (sel : Nat) (i : Buf) : Prop := (sel = 0 ∧ i = .in0) ∨ (sel = 1 ∧ i = .in1)

/-- What a region selector selects (30_encoding.md R93). -/
def selectsRegion (sel : Nat) (r : Region) : Prop :=
  (sel = 0 ∧ r = .boot) ∨ (sel = 1 ∧ r = .bankA) ∨ (sel = 2 ∧ r = .bankB) ∨ (sel = 3 ∧ r = .data)

/-- What the five result registers read as, `none` for a cell without value (10_state.md R34). -/
def resultCells (c : Config) (s : State) : List (Option Word) :=
  [readReg c s .res0, readReg c s .res1, readReg c s .res2, readReg c s .res3, readReg c s .res4]

/-- A buffer that `META.BUILD` accepts as a bank image: absent, or within the bank and a multiple of 4 long
(43_metadata.md R191, R194). -/
def bankAccepts (c : Config) (m : Memory) : Prop :=
  ∀ b, m = some b → b.length ≤ c.bankSize.toNat ∧ b.length % 4 = 0

/-- The host's actions for a streaming checksum of the words `ws`: `CRC.INIT`, then for each word a write of `ARG0` and
`CRC.WORD` (40_crc.md R138). -/
def streamActions (ws : List Word) : List HostAction :=
  .writeReg 4 cmdOffset (encode .crcInit) ::
    ws.flatMap fun w => [.writeReg 4 arg0Offset w, .writeReg 4 cmdOffset (encode .crcWord)]

end Sys2Proof.Machine
end

