-- ==== Sys2Proof/Certificates/Slice0/Obligations.lean ====
section
/-! DEFINITION. The statements about the FIB, for the provers. Each docstring names the rules of spec/ it rests on. -/

open Sys2Proof Sys2Proof.Machine

/-! ### The command word -/

/-- Words written out from the encoding of 30_encoding.md R90 and R92 and what they stand for, legal and illegal ones
(95_test_vectors.md section 8). -/
def Obligations.DecodeReadsSampleWords : Prop :=
  decode 0x00000001#32 = .ok .crcInit ∧
  decode 0x00000002#32 = .ok .crcWord ∧
  decode 0x00000103#32 = .ok (.crcCompute 1) ∧
  decode 0x00000203#32 = .ok (.crcCompute 2) ∧
  decode 0x00000110#32 = .ok (.hdrParse 1) ∧
  decode 0x00000321#32 = .ok (.fits 3) ∧
  decode 0x00000130#32 = .ok (.metaBuild 1) ∧
  decode 0x0000FF31#32 = .ok (.metaParse 255) ∧
  decode 0x00000040#32 = .ok .merge ∧
  decode 0x00000000#32 = .error .unassignedOpcode ∧
  decode 0x0000007F#32 = .error .unassignedOpcode ∧
  decode 0x00010040#32 = .error .reservedNonzero ∧
  decode 0x00000140#32 = .error .selectorNonzero ∧
  decode 0x00000101#32 = .error .selectorNonzero ∧
  decode 0xFFFFFFFF#32 = .error .reservedNonzero

/-- No bit of an encoding is dropped: a well-formed command is what its word decodes to (30_encoding.md R91, R95). -/
def Obligations.DecodeOfEncode : Prop :=
  ∀ i : Instr, i.wellFormed = true → decode (encode i) = .ok i

/-- Each legal word spells one well-formed command, and is that command's own word (30_encoding.md R91). -/
def Obligations.EncodeOfDecode : Prop :=
  ∀ (w : Word) (i : Instr), decode w = .ok i → i.wellFormed = true ∧ encode i = w

/-- The decoder reads a row's command exactly from the words that match the row of opcode_table.json, its selector from
bits 15:8, and `Illegal` from every word that matches no row (30_encoding.md R91). -/
def Obligations.DecodeMatchesOpcodeTable : Prop :=
  ∀ w : Word,
    (decode w = .ok .crcInit ↔ w &&& 0xFFFFFFFF#32 = 0x00000001#32) ∧
    (decode w = .ok .crcWord ↔ w &&& 0xFFFFFFFF#32 = 0x00000002#32) ∧
    (∀ sel, decode w = .ok (.crcCompute sel) ↔
      w &&& 0xFFFF00FF#32 = 0x00000003#32 ∧ sel = w.toNat / 256 % 256) ∧
    (∀ sel, decode w = .ok (.hdrParse sel) ↔
      w &&& 0xFFFF00FF#32 = 0x00000010#32 ∧ sel = w.toNat / 256 % 256) ∧
    (∀ sel, decode w = .ok (.fits sel) ↔
      w &&& 0xFFFF00FF#32 = 0x00000021#32 ∧ sel = w.toNat / 256 % 256) ∧
    (∀ sel, decode w = .ok (.metaBuild sel) ↔
      w &&& 0xFFFF00FF#32 = 0x00000030#32 ∧ sel = w.toNat / 256 % 256) ∧
    (∀ sel, decode w = .ok (.metaParse sel) ↔
      w &&& 0xFFFF00FF#32 = 0x00000031#32 ∧ sel = w.toNat / 256 % 256) ∧
    (decode w = .ok .merge ↔ w &&& 0xFFFFFFFF#32 = 0x00000040#32) ∧
    ((∃ e, decode w = .error e) ↔
      w &&& 0xFFFFFFFF#32 ≠ 0x00000001#32 ∧ w &&& 0xFFFFFFFF#32 ≠ 0x00000002#32 ∧
      w &&& 0xFFFF00FF#32 ≠ 0x00000003#32 ∧ w &&& 0xFFFF00FF#32 ≠ 0x00000010#32 ∧
      w &&& 0xFFFF00FF#32 ≠ 0x00000021#32 ∧ w &&& 0xFFFF00FF#32 ≠ 0x00000030#32 ∧
      w &&& 0xFFFF00FF#32 ≠ 0x00000031#32 ∧ w &&& 0xFFFFFFFF#32 ≠ 0x00000040#32)

/-! ### The Checksum Engine's commands -/

/-- `CRC.INIT` (40_crc.md R134): its word, its effect in every state, its flags, and that twice is as once. -/
def Obligations.CrcInitEffect : Prop :=
  encode .crcInit = 0x00000001#32 ∧
  ∀ s : State,
    let t : State := { s with acc := 0xFFFFFFFF#32, last := .done 0x01#8 }
    exec .crcInit s = .next t ∧ exec .crcInit t = .next t ∧
    statusWord t = 0x00000101#32 ||| bitWord s.fatal 3

/-- `CRC.WORD` (40_crc.md R135): its word, its effect in every state, its flags, the corner case `ARG0 = ACC` and the
worked example. -/
def Obligations.CrcWordEffect : Prop :=
  encode .crcWord = 0x00000002#32 ∧
  (∀ s : State,
    let t : State := { s with acc := crcWord s.acc s.arg0, last := .done 0x02#8 }
    exec .crcWord s = .next t ∧
    statusWord t = 0x00000201#32 ||| bitWord s.fatal 3 ∧
    (s.arg0 = s.acc → t.acc = 0#32)) ∧
  crcWord 0xFFFFFFFF#32 0x00000000#32 = 0xC704DD7B#32

/-- `CRC.COMPUTE sel` (40_crc.md R136): its words, the empty buffer, the worked example, its checks in order, its result
and flags. -/
def Obligations.CrcComputeEffect : Prop :=
  encode (.crcCompute 0) = 0x00000003#32 ∧ encode (.crcCompute 1) = 0x00000103#32 ∧
  crcCompute [] = .ok 0xFFFFFFFF#32 ∧
  crcCompute [0x11#8, 0x22#8, 0x33#8, 0x44#8, 0x55#8, 0x66#8, 0x77#8, 0x88#8] = .ok 0x3712888E#32 ∧
  ∀ (sel : Nat) (s : State),
    (1 < sel → exec (.crcCompute sel) s = .next { s with last := .error 0x03#8 .invalidArgument }) ∧
    ∀ i, selectsBuf sel i →
      (s.buf i = none → exec (.crcCompute sel) s = .next { s with last := .error 0x03#8 .operandAbsent }) ∧
      ∀ b, s.buf i = some b →
        (b.length % 4 ≠ 0 →
          exec (.crcCompute sel) s = .next { s with last := .error 0x03#8 .invalidInputLength }) ∧
        (b.length % 4 = 0 →
          ∃ v, crcCompute b = .ok v ∧
            let t : State := { s with last := .crc 0x03#8 v }
            exec (.crcCompute sel) s = .next t ∧
            resultCells cfg t = [some v, none, none, none, none] ∧
            statusWord t = 0x00000301#32 ||| bitWord s.fatal 3)

/-! ### The header codec's command -/

/-- `HDR.PARSE sel` (41_header.md R153): its words, the worked example, its checks in order, its results and flags in the
three cases. -/
def Obligations.HdrParseEffect : Prop :=
  encode (.hdrParse 0) = 0x00000010#32 ∧ encode (.hdrParse 1) = 0x00000110#32 ∧
  (∀ rest : List Byte, rest.length = 56 →
    ∃ h, hdrParse ([0xEF#8, 0xBE#8, 0xAD#8, 0xDE#8, 0x03#8, 0x02#8, 0x01#8, 0x00#8] ++ rest) = .present h ∧
      h.magic = 0xDEADBEEF#32 ∧ h.version = 0x00010203#32) ∧
  ∀ (sel : Nat) (s : State),
    (1 < sel → exec (.hdrParse sel) s = .next { s with last := .error 0x10#8 .invalidArgument }) ∧
    ∀ i, selectsBuf sel i →
      (s.buf i = none → exec (.hdrParse sel) s = .next { s with last := .error 0x10#8 .operandAbsent }) ∧
      ∀ b, s.buf i = some b →
        let t : State := { s with last := .hdr 0x10#8 (hdrParse b) }
        exec (.hdrParse sel) s = .next t ∧
        (∀ h, hdrParse b = .present h →
          resultCells cfg t = [some h.magic, some h.version, some h.declaredSize, some h.crc32, some h.flags] ∧
          statusWord t = 0x00001011#32 ||| bitWord s.fatal 3) ∧
        (hdrParse b = .absentShort →
          resultCells cfg t = [none, none, none, none, none] ∧ statusWord t = 0x00001021#32 ||| bitWord s.fatal 3) ∧
        (∀ m, hdrParse b = .absentMagic m →
          resultCells cfg t = [some m, none, none, none, none] ∧ statusWord t = 0x00001031#32 ||| bitWord s.fatal 3)

/-! ### The Bank Layout Model's command -/

/-- `FITS region` (42_layout.md R176): its words, its checks in order, the four budgets, success, and
the two numbers of `SizeExceeded`. -/
def Obligations.FitsEffect : Prop :=
  encode (.fits 0) = 0x00000021#32 ∧ encode (.fits 1) = 0x00000121#32 ∧ encode (.fits 2) = 0x00000221#32 ∧
  encode (.fits 3) = 0x00000321#32 ∧
  regionSize cfg .boot = 8192 ∧ regionSize cfg .bankA = cfg.bankSize.toNat ∧
  regionSize cfg .bankB = cfg.bankSize.toNat ∧ regionSize cfg .data = cfg.dataSize.toNat ∧
  ∀ (sel : Nat) (s : State),
    (3 < sel → exec (.fits sel) s = .next { s with last := .error 0x21#8 .invalidArgument }) ∧
    ∀ r, selectsRegion sel r →
      (s.fatal = true → exec (.fits sel) s = .next { s with last := .error 0x21#8 .layoutInvalid }) ∧
      (s.fatal = false → s.arg0.toNat ≤ regionSize cfg r →
        let t : State := { s with last := .done 0x21#8 }
        exec (.fits sel) s = .next t ∧ statusWord t = 0x00002101#32) ∧
      (s.fatal = false → regionSize cfg r < s.arg0.toNat →
        let t : State := { s with last := .error 0x21#8 (.sizeExceeded s.arg0.toNat (regionSize cfg r)) }
        exec (.fits sel) s = .next t ∧ statusWord t = 0x00002103#32 ∧
        readReg cfg t .errCode = some 2#32 ∧ readReg cfg t .errDeclared = some s.arg0 ∧
        readReg cfg t .errLimit = some (BitVec.ofNat 32 (regionSize cfg r)))

/-! ### The metadata codec's commands -/

/-- `META.BUILD bank` (43_metadata.md R196): its words; under any configuration its checks in the order selector, layout,
bank A's budget and length, bank B's budget and length; the command of the block is the one at its configuration; the
record, its serialization and the flags on success; and the worked example (image A1 of 95_test_vectors.md). -/
def Obligations.MetaBuildEffect : Prop :=
  encode (.metaBuild 0) = 0x00000030#32 ∧ encode (.metaBuild 1) = 0x00000130#32 ∧
  (∀ c : Config, c.flagA = 0x0A#8 → 200 ≤ c.bankSize.toNat →
    let a1 : List Byte :=
      [0xEF#8, 0xBE#8, 0xAD#8, 0xDE#8, 0x00#8, 0x00#8, 0x01#8, 0x00#8, 0xC8#8, 0x00#8, 0x00#8, 0x00#8,
       0x00#8, 0x00#8, 0x00#8, 0x00#8, 0x00#8, 0x00#8, 0x00#8, 0x00#8] ++
        (List.range 180).map fun k => BitVec.ofNat 8 (7 * (k + 20) + 3)
    ∃ r, metaBuild c 0 (some a1) none = .ok r ∧
      metaSerialize r =
        [0x0A#8, 0x00#8, 0x00#8, 0x00#8, 0xC8#8, 0x00#8, 0x00#8, 0x00#8, 0x00#8, 0x00#8, 0x00#8, 0x00#8,
         0x90#8, 0x20#8, 0xF9#8, 0x39#8, 0xFF#8, 0xFF#8, 0xFF#8, 0xFF#8]) ∧
  (∀ (c : Config) (sel : Nat) (s : State),
    (1 < sel → commandAt c (.metaBuild sel) s = { s with last := .error 0x30#8 .invalidArgument }) ∧
    (sel ≤ 1 → s.fatal = true → commandAt c (.metaBuild sel) s = { s with last := .error 0x30#8 .layoutInvalid }) ∧
    (sel ≤ 1 → s.fatal = false →
      (∀ b, s.in0 = some b → c.bankSize.toNat < b.length →
        commandAt c (.metaBuild sel) s =
          { s with last := .error 0x30#8 (.sizeExceeded b.length c.bankSize.toNat) }) ∧
      (∀ b, s.in0 = some b → b.length ≤ c.bankSize.toNat → b.length % 4 ≠ 0 →
        commandAt c (.metaBuild sel) s = { s with last := .error 0x30#8 .invalidInputLength }) ∧
      (bankAccepts c s.in0 → ∀ b, s.in1 = some b → c.bankSize.toNat < b.length →
        commandAt c (.metaBuild sel) s =
          { s with last := .error 0x30#8 (.sizeExceeded b.length c.bankSize.toNat) }) ∧
      (bankAccepts c s.in0 → ∀ b, s.in1 = some b → b.length ≤ c.bankSize.toNat → b.length % 4 ≠ 0 →
        commandAt c (.metaBuild sel) s = { s with last := .error 0x30#8 .invalidInputLength }))) ∧
  (∀ (sel : Nat) (s : State), exec (.metaBuild sel) s = .next (commandAt cfg (.metaBuild sel) s)) ∧
  ∀ (sel : Nat) (s : State), sel ≤ 1 → s.fatal = false → bankAccepts cfg s.in0 → bankAccepts cfg s.in1 →
    let r : MetaRecord :=
      { flag := if sel = 0 then cfg.flagA else cfg.flagB
        aSize := BitVec.ofNat 32 (Memory.len s.in0)
        bSize := BitVec.ofNat 32 (Memory.len s.in1)
        aCrc := crcFold 0xFFFFFFFF#32 (wordsLe (s.in0.getD []))
        bCrc := crcFold 0xFFFFFFFF#32 (wordsLe (s.in1.getD [])) }
    let t : State := { s with last := .built 0x30#8 r (metaSerialize r) }
    exec (.metaBuild sel) s = .next t ∧
    resultCells cfg t = [some (r.flag.setWidth 32), some r.aSize, some r.bSize, some r.aCrc, some r.bCrc] ∧
    t.last.out = some (metaSerialize r) ∧ readReg cfg t .outLen = some 20#32 ∧
    statusWord t = 0x00003041#32

/-- `META.PARSE sel` (43_metadata.md R201, R198): its words, the worked example, its checks in order, its result and
flags. -/
def Obligations.MetaParseEffect : Prop :=
  encode (.metaParse 0) = 0x00000031#32 ∧ encode (.metaParse 1) = 0x00000131#32 ∧
  (∀ (c : Config) (x y z : Byte), c.flagA = 0x0A#8 →
    metaParse c [0x0A#8, x, y, z, 0xC8#8, 0x00#8, 0x00#8, 0x00#8, 0x00#8, 0x00#8, 0x00#8, 0x00#8,
        0x90#8, 0x20#8, 0xF9#8, 0x39#8, 0xFF#8, 0xFF#8, 0xFF#8, 0xFF#8] =
      .ok { flag := 0x0A#8, aSize := 200#32, bSize := 0#32, aCrc := 0x39F92090#32, bCrc := 0xFFFFFFFF#32 }) ∧
  ∀ (sel : Nat) (s : State),
    (1 < sel → exec (.metaParse sel) s = .next { s with last := .error 0x31#8 .invalidArgument }) ∧
    ∀ i, selectsBuf sel i →
      (s.buf i = none → exec (.metaParse sel) s = .next { s with last := .error 0x31#8 .operandAbsent }) ∧
      ∀ b, s.buf i = some b →
        (b.length ≠ 20 →
          exec (.metaParse sel) s = .next { s with last := .error 0x31#8 .invalidInputLength }) ∧
        (b.length = 20 → byteAt b 0 ≠ cfg.flagA → byteAt b 0 ≠ cfg.flagB →
          exec (.metaParse sel) s = .next { s with last := .error 0x31#8 .invalidArgument }) ∧
        (b.length = 20 → (byteAt b 0 = cfg.flagA ∨ byteAt b 0 = cfg.flagB) →
          let r : MetaRecord :=
            { flag := byteAt b 0
              aSize := le32 (byteAt b 4) (byteAt b 5) (byteAt b 6) (byteAt b 7)
              bSize := le32 (byteAt b 8) (byteAt b 9) (byteAt b 10) (byteAt b 11)
              aCrc := le32 (byteAt b 12) (byteAt b 13) (byteAt b 14) (byteAt b 15)
              bCrc := le32 (byteAt b 16) (byteAt b 17) (byteAt b 18) (byteAt b 19) }
          let t : State := { s with last := .metaParsed 0x31#8 r }
          exec (.metaParse sel) s = .next t ∧
          resultCells cfg t = [some (r.flag.setWidth 32), some r.aSize, some r.bSize, some r.aCrc, some r.bCrc] ∧
          t.last.out = none ∧ statusWord t = 0x00003101#32 ||| bitWord s.fatal 3)

/-! ### The merge command -/

/-- `MERGE` (44_merge.md R225): its word, its checks in order, the output, `RES0`, `HDR` and `WARN` on success, and, under
any configuration whose layout is valid, `OUT_LEN`. What `merge` puts into the output is stated by MergedImageBytes. -/
def Obligations.MergeEffect : Prop :=
  encode .merge = 0x00000040#32 ∧
  (∀ s : State, exec .merge s = .next (commandAt cfg .merge s)) ∧
  (∀ (c : Config) (s : State) (boot app : List Byte), layoutValid c = true → s.fatal = false →
    s.in0 = some boot → s.in1 = some app → boot.length ≤ 8192 → app.length ≤ c.appSize.toNat →
    readReg c (commandAt c .merge s) .outLen = some (BitVec.ofNat 32 (c.appOffset + app.length))) ∧
  ∀ s : State,
    (s.fatal = true → exec .merge s = .next { s with last := .error 0x40#8 .layoutInvalid }) ∧
    (s.fatal = false → s.in0 = none → exec .merge s = .next { s with last := .error 0x40#8 .operandAbsent }) ∧
    (s.fatal = false → s.in1 = none → exec .merge s = .next { s with last := .error 0x40#8 .operandAbsent }) ∧
    (s.fatal = false → ∀ boot app, s.in0 = some boot → s.in1 = some app →
      (8192 < boot.length →
        exec .merge s = .next { s with last := .error 0x40#8 (.sizeExceeded boot.length 8192) }) ∧
      (boot.length ≤ 8192 → cfg.appSize.toNat < app.length →
        exec .merge s = .next { s with last := .error 0x40#8 (.sizeExceeded app.length cfg.appSize.toNat) }) ∧
      (boot.length ≤ 8192 → app.length ≤ cfg.appSize.toNat →
        ∃ m, merge cfg boot app = .ok m ∧
          let t : State := { s with last := .merged 0x40#8 m (hdrParse app).state }
          exec .merge s = .next t ∧
          resultCells cfg t = [some (BitVec.ofNat 32 cfg.appOffset), none, none, none, none] ∧
          t.last.out = some m ∧
          ((hdrParse app).state = .present → statusWord t = 0x00004051#32) ∧
          ((hdrParse app).state = .short → statusWord t = 0x00004065#32) ∧
          ((hdrParse app).state = .badMagic → statusWord t = 0x00004075#32)))

/-! ### Steps of the machine and commands in general -/

/-- When the host's next action is a write to `CMD` of a word that decodes to a command, the step is that command, with
the action taken off the stream (10_state.md R24, 20_memory.md R71). -/
def Obligations.StepRunsDecodedCommand : Prop :=
  ∀ (s : State) (w : Word) (i : Instr) (rest : List HostAction),
    s.pending = .writeReg 4 0 w :: rest → decode w = .ok i → step s = exec i { s with pending := rest }

/-- A word that decodes to `Illegal` latches `IllegalCommand` with the word's low byte and changes nothing else
(60_exceptions.md R247). -/
def Obligations.IllegalWordLatchesIllegalCommand : Prop :=
  ∀ (s : State) (w : Word) (e : IllegalWord) (rest : List HostAction),
    s.pending = .writeReg 4 0 w :: rest → decode w = .error e →
      let t : State := { s with pending := rest, last := .error (w.extractLsb' 0 8) .illegalCommand }
      step s = .next t ∧ readReg cfg t .errCode = some 4#32 ∧
      readReg cfg t .errDeclared = some 0#32 ∧ readReg cfg t .errLimit = some 0#32

/-- What no command changes: `FATAL`, `ARG0`, both input buffers byte for byte, and the host's stream; and `ACC`, but for
`CRC.INIT` and `CRC.WORD` (10_state.md R25, R26, R28). -/
def Obligations.CommandFrame : Prop :=
  ∀ (i : Instr) (s t : State), exec i s = .next t →
    t.fatal = s.fatal ∧ t.arg0 = s.arg0 ∧ t.in0 = s.in0 ∧ t.in1 = s.in1 ∧
    (∀ j k, Memory.byte? (t.buf j) k = Memory.byte? (s.buf j) k) ∧
    t.pending = s.pending ∧ t.replies = s.replies ∧
    (i ≠ .crcInit → i ≠ .crcWord → t.acc = s.acc)

/-- Every command, in every state, answers a next state and leaves its own opcode in the latch (10_state.md R30,
70_reset_and_hazards.md R292). -/
def Obligations.EveryCommandCompletesAndLatches : Prop :=
  ∀ (i : Instr) (s : State), ∃ t, exec i s = .next t ∧ t.last.opField = i.opcode ∧ t.last ≠ .idle

/-- Error entry (60_exceptions.md R244): a command that ends in an error has written `LAST` and nothing else, and the
registers read as the rule says. -/
def Obligations.ErrorEntryWritesOnlyTheLatch : Prop :=
  ∀ (i : Instr) (s t : State) (op : Byte) (e : CmdError), exec i s = .next t → t.last = .error op e →
    t = { s with last := .error op e } ∧ op = (encode i).extractLsb' 0 8 ∧
    statusWord t = 0x00000003#32 ||| bitWord s.fatal 3 ||| (op.setWidth 32 <<< 8) ∧
    readReg cfg t .errCode = some (match e with
      | .invalidInputLength => 1#32
      | .sizeExceeded _ _ => 2#32
      | .invalidArgument => 3#32
      | .illegalCommand => 4#32
      | .layoutInvalid => 5#32
      | .operandAbsent => 6#32) ∧
    (∀ d l, e = .sizeExceeded d l →
      readReg cfg t .errDeclared = some (BitVec.ofNat 32 d) ∧ readReg cfg t .errLimit = some (BitVec.ofNat 32 l)) ∧
    ((∀ d l, e ≠ .sizeExceeded d l) →
      readReg cfg t .errDeclared = some 0#32 ∧ readReg cfg t .errLimit = some 0#32) ∧
    resultCells cfg t = [none, none, none, none, none] ∧ t.last.out = none ∧ readReg cfg t .outLen = some 0#32

/-- `FATAL` (60_exceptions.md R248): it stops `FITS`, `META.BUILD` and `MERGE` with `LayoutInvalid` after the selector
check, makes no difference to the other five commands, and no command and no host action but reset changes it. -/
def Obligations.FatalGatesOnlyLayoutCommands : Prop :=
  (∀ (s : State) (sel : Nat), s.fatal = true →
    (sel ≤ 3 → exec (.fits sel) s = .next { s with last := .error 0x21#8 .layoutInvalid }) ∧
    (sel ≤ 1 → exec (.metaBuild sel) s = .next { s with last := .error 0x30#8 .layoutInvalid }) ∧
    exec .merge s = .next { s with last := .error 0x40#8 .layoutInvalid }) ∧
  (∀ (i : Instr) (s t : State) (f : Bool), (∀ sel, i ≠ .fits sel) → (∀ sel, i ≠ .metaBuild sel) → i ≠ .merge →
    exec i s = .next t → exec i { s with fatal := f } = .next { t with fatal := f }) ∧
  (∀ s t : State, s.pending.head? ≠ some .reset → step s = .next t → t.fatal = s.fatal)

/-- Independence of commands (10_state.md R22): the outcome depends on `FATAL`, `ARG0`, `IN0`, `IN1` and, for `CRC.WORD`
only, on `ACC`; never on an earlier command's result. -/
def Obligations.OutcomeIndependentOfLatch : Prop :=
  ∀ (i : Instr) (s₁ s₂ t₁ t₂ : State),
    s₁.fatal = s₂.fatal → s₁.arg0 = s₂.arg0 → s₁.in0 = s₂.in0 → s₁.in1 = s₂.in1 →
    (i = .crcWord → s₁.acc = s₂.acc) →
    exec i s₁ = .next t₁ → exec i s₂ = .next t₂ →
    t₁.last = t₂.last ∧ (i = .crcInit ∨ i = .crcWord → t₁.acc = t₂.acc)

/-- Every command except `CRC.WORD` is idempotent on the state (20_memory.md R68). -/
def Obligations.CommandsExceptCrcWordAreIdempotent : Prop :=
  ∀ (i : Instr) (s t : State), i ≠ .crcWord → exec i s = .next t → exec i t = .next t

/-! ### The checksum as a function -/

/-- One round in natural-number arithmetic (40_crc.md R130). -/
def Obligations.CrcRoundArithmetic : Prop :=
  ∀ a : Word, (crcRound a).toNat =
    if a.toNat / 2 ^ 31 = 1 then (a.toNat * 2 % 2 ^ 32) ^^^ 0x04C11DB7 else a.toNat * 2 % 2 ^ 32

/-- The algebra of `crc_word` (40_crc.md R137 (a) to (d)). -/
def Obligations.CrcWordAlgebra : Prop :=
  (∀ a w, crcWord a w = crcWord (a ^^^ w) 0#32) ∧
  (∀ a, crcWord a a = 0#32) ∧
  (∀ p q, crcRound (p ^^^ q) = crcRound p ^^^ crcRound q) ∧
  (∀ p q, crcWord (p ^^^ q) 0#32 = crcWord p 0#32 ^^^ crcWord q 0#32) ∧
  Function.Bijective (fun a => crcWord a 0#32) ∧
  (∀ a, Function.Bijective (crcWord a))

/-- `crc_word` as a remainder of polynomials over GF(2), bit `k` the coefficient of `X^k` (40_crc.md R137 (e)). -/
def Obligations.CrcWordIsPolynomialRemainder : Prop :=
  let poly : Word → Polynomial (ZMod 2) :=
    fun v => ∑ k ∈ Finset.range 32, if v.getLsbD k then Polynomial.X ^ k else 0
  ∀ a w : Word,
    poly (crcWord a w) =
      (poly (a ^^^ w) * Polynomial.X ^ 32) %ₘ (Polynomial.X ^ 32 + poly 0x04C11DB7#32)

/-- Acceptance by length, and the empty input (40_crc.md R139, R140). -/
def Obligations.ChecksumLengthAcceptance : Prop :=
  crcCompute [] = .ok 0xFFFFFFFF#32 ∧
  ∀ d : List Byte,
    (d.length % 4 ≠ 0 → crcCompute d = .error .invalidInputLength) ∧
    (d.length % 4 = 0 → ∃ v, crcCompute d = .ok v)

/-- The words of a buffer are taken in ascending order, each little-endian: one more word at the end is one more
`crc_word` (40_crc.md R132, 20_memory.md R63). -/
def Obligations.ChecksumOfAppendedWord : Prop :=
  ∀ (d : List Byte) (v : Word) (b0 b1 b2 b3 : Byte), crcCompute d = .ok v →
    crcCompute (d ++ [b0, b1, b2, b3]) =
      .ok (crcWord v (b0.setWidth 32 ||| (b1.setWidth 32 <<< 8) ||| (b2.setWidth 32 <<< 16) |||
        (b3.setWidth 32 <<< 24)))

/-- Streaming equals buffered (40_crc.md R138): the host's stream of `CRC.INIT` and, for each word, a write of `ARG0` and
`CRC.WORD`, runs to its end and leaves in `ACC` the checksum of the buffer; and no other command disturbs `ACC`. -/
def Obligations.StreamingEqualsBuffered : Prop :=
  (∀ (s : State) (d : List Byte) (v : Word), crcCompute d = .ok v →
    ∃ t, Host.Core.run core (1 + 2 * (d.length / 4)) { s with pending := streamActions (wordsLe d) } = .next t ∧
      t.acc = v ∧ t.pending = [] ∧ t.in0 = s.in0 ∧ t.in1 = s.in1) ∧
  (∀ (i : Instr) (s t : State), i ≠ .crcInit → i ≠ .crcWord → exec i s = .next t → t.acc = s.acc)

/-! ### The header codec as a function -/

/-- `hdr_parse` (41_header.md R150): the length test, the magic test, the five little-endian fields. -/
def Obligations.HeaderParseOutcomes : Prop :=
  ∀ img : List Byte,
    let magic := le32 (byteAt img 0) (byteAt img 1) (byteAt img 2) (byteAt img 3)
    (img.length < 64 → hdrParse img = .absentShort) ∧
    (64 ≤ img.length → magic ≠ 0xDEADBEEF#32 → hdrParse img = .absentMagic magic) ∧
    (64 ≤ img.length → magic = 0xDEADBEEF#32 →
      hdrParse img = .present
        { magic := magic
          version := le32 (byteAt img 4) (byteAt img 5) (byteAt img 6) (byteAt img 7)
          declaredSize := le32 (byteAt img 8) (byteAt img 9) (byteAt img 10) (byteAt img 11)
          crc32 := le32 (byteAt img 12) (byteAt img 13) (byteAt img 14) (byteAt img 15)
          flags := le32 (byteAt img 16) (byteAt img 17) (byteAt img 18) (byteAt img 19) })

/-- Bytes 20 and on of an image are never read by `HDR.PARSE`; they only have to exist (30_encoding.md R98). -/
def Obligations.HeaderParseIgnoresBytesFrom20 : Prop :=
  ∀ a b : List Byte, 64 ≤ a.length → 64 ≤ b.length → a.take 20 = b.take 20 → hdrParse a = hdrParse b

/-- A 64-byte image whose first four bytes are the magic, little-endian, and whose version is `0x00010203` has a present
header with version string "v1.2.3", whatever the other bytes hold (41_header.md R155). -/
def Obligations.HeaderVersionString : Prop :=
  ∀ rest : List Byte, rest.length = 56 →
    let img : List Byte := [0xEF#8, 0xBE#8, 0xAD#8, 0xDE#8, 0x03#8, 0x02#8, 0x01#8, 0x00#8] ++ rest
    (hdrParse img).state = .present ∧ (hdrParse img).versionStr? = some "v1.2.3"

/-! ### The Bank Layout Model as functions -/

/-- Under a valid layout `app_offset` is at least 8192, the subtraction does not borrow (so `CFG_APP_OFFSET` reads
`app_offset`), and a bootloader image that fits ends at or before it (42_layout.md R175); where the regions are contiguous
`app_offset` is `0x2000` (42_layout.md R172). -/
def Obligations.ApplicationOffsetUnderValidLayout : Prop :=
  (∀ (c : Config) (s : State), layoutValid c = true →
    8192 ≤ c.appOffset ∧ c.bootBase.toNat + c.appOffset = c.bankABase.toNat ∧
    readReg c s .cfgAppOffset = some (BitVec.ofNat 32 c.appOffset) ∧
    ∀ n, fits c n .boot = .ok () → n ≤ c.appOffset) ∧
  ∀ c : Config, layoutContiguous c = true → c.appOffset = 0x2000

/-- Under a valid layout the four regions are pairwise disjoint, lie in the 32-bit address space, the data region holds a
record, and the two flag values differ (42_layout.md R171, 20_memory.md R61). -/
def Obligations.ValidLayoutSeparatesRegions : Prop :=
  ∀ c : Config, layoutValid c = true →
    (∀ r₁ r₂ a, r₁ ≠ .app → r₂ ≠ .app → inRegion c r₁ a = true → inRegion c r₂ a = true → r₁ = r₂) ∧
    (∀ r a, inRegion c r a = true → a < 2 ^ 32) ∧
    (∀ k, k < 20 → inRegion c .data (recordFlashAddr c k) = true) ∧ c.flagA ≠ c.flagB

/-- The corner cases of the budget check (42_layout.md R177). -/
def Obligations.FitsBoundaries : Prop :=
  ∀ (c : Config) (r : Region),
    fits c 0 r = .ok () ∧ fits c (regionSize c r) r = .ok () ∧
    fits c (regionSize c r + 1) r = .error (.sizeExceeded (regionSize c r + 1) (regionSize c r)) ∧
    (regionSize c r < 2 ^ 32 - 1 →
      fits c 0xFFFFFFFF r = .error (.sizeExceeded 0xFFFFFFFF (regionSize c r)))

/-! ### The merge as a function -/

/-- The bytes of a merged image under a valid layout: the bootloader from 0, `0xFF` up to `app_offset`, the application
from there to the end, and the length (44_merge.md R220, R223, R227). -/
def Obligations.MergedImageBytes : Prop :=
  ∀ (c : Config) (boot app m : List Byte), layoutValid c = true → merge c boot app = .ok m →
    m.length = c.appOffset + app.length ∧
    (∀ k, k < boot.length → m[k]? = boot[k]?) ∧
    (∀ k, boot.length ≤ k → k < c.appOffset → m[k]? = some 0xFF#8) ∧
    (∀ k, c.appOffset ≤ k → m[k]? = app[k - c.appOffset]?)

/-- When `merge` fails and with what, the bootloader's budget first, and when it succeeds (44_merge.md R221, R228). -/
def Obligations.MergeRejectsOversizeImages : Prop :=
  ∀ (c : Config) (boot app : List Byte),
    (8192 < boot.length → merge c boot app = .error (.sizeExceeded boot.length 8192)) ∧
    (boot.length ≤ 8192 → c.bankSize.toNat < app.length →
      merge c boot app = .error (.sizeExceeded app.length c.bankSize.toNat)) ∧
    (boot.length ≤ 8192 → app.length ≤ c.bankSize.toNat → ∃ m, merge c boot app = .ok m)

/-- The bound on the output buffer (20_memory.md R74), and where a collaborator writes the application's bytes
(20_memory.md R62). -/
def Obligations.MergeOutputIsBounded : Prop :=
  ∀ (c : Config) (boot app m : List Byte), layoutValid c = true → merge c boot app = .ok m →
    m.length = c.appOffset + app.length ∧ m.length ≤ c.appOffset + c.appSize.toNat ∧
    c.appOffset + c.appSize.toNat ≤ 2 ^ 32 - c.bootBase.toNat ∧ m.length < 2 ^ 32 ∧
    ∀ j, mergedFlashAddr c (c.appOffset + j) = appFlashAddr c j

/-- The source's end-to-end scenario, in every valid layout with `app_offset = 0x2000` whose bank takes 200 bytes, and what
`MERGE` latches and `STATUS` shows after it (44_merge.md R229). -/
def Obligations.MergeEndToEndScenario : Prop :=
  ∀ (c : Config) (boot app : List Byte), layoutValid c = true → c.appOffset = 0x2000 → 200 ≤ c.bankSize.toNat →
    boot.length = 100 → app.length = 200 →
    app.take 8 = [0xEF#8, 0xBE#8, 0xAD#8, 0xDE#8, 0x00#8, 0x00#8, 0x01#8, 0x00#8] →
    ∃ m, merge c boot app = .ok m ∧ m.length = 8392 ∧ m.take 100 = boot ∧
      (m.drop 100).take (0x2000 - 100) = List.replicate (0x2000 - 100) 0xFF#8 ∧ m.drop 0x2000 = app ∧
      (hdrParse app).state = .present ∧ (hdrParse app).versionStr? = some "v1.0.0" ∧
      ∀ s : State, s.fatal = false → s.in0 = some boot → s.in1 = some app →
        let t : State := { s with last := .merged 0x40#8 m .present }
        commandAt c .merge s = t ∧ statusWord t = 0x00004051#32

/-! ### The metadata codec as functions -/

/-- Serialization is lossless: parsing a built record's serialization gives the record back (43_metadata.md R199). -/
def Obligations.MetaRecordRoundTrip : Prop :=
  ∀ (c : Config) (sel : Nat) (a b : Memory) (r : MetaRecord), metaBuild c sel a b = .ok r →
    metaParse c (metaSerialize r) = .ok r

/-- The reserved bytes (30_encoding.md R102): the parser accepts any value there and drops it, so serializing a parsed
record gives the bytes back exactly when they are zero; the serialization writes zeros; a valid record survives it. -/
def Obligations.ReservedRecordBytes : Prop :=
  (∀ r : MetaRecord, (metaSerialize r).length = 20 ∧ ((metaSerialize r).drop 1).take 3 = [0x00#8, 0x00#8, 0x00#8]) ∧
  (∀ (c : Config) (r : MetaRecord), r.valid c = true → metaParse c (metaSerialize r) = .ok r) ∧
  (∀ (c : Config) (s : List Byte) (r : MetaRecord), metaParse c s = .ok r →
    (metaSerialize r = s ↔ (s.drop 1).take 3 = [0#8, 0#8, 0#8])) ∧
  (∀ (c : Config) (f x y z x' y' z' : Byte) (rest : List Byte),
    metaParse c (f :: x :: y :: z :: rest) = metaParse c (f :: x' :: y' :: z' :: rest))

/-- What a built record says of each bank: the image's own length, a multiple of 4, and the checksum of exactly its
bytes, never of a padded bank; zero and `0xFFFFFFFF` for an absent one (43_metadata.md R191, R193, R194). -/
def Obligations.RecordCoversActualImages : Prop :=
  ∀ (c : Config) (sel : Nat) (a b : Memory) (r : MetaRecord), metaBuild c sel a b = .ok r →
    (∀ img, a = some img → r.aSize.toNat = img.length ∧ r.aSize.toNat % 4 = 0 ∧ crcCompute img = .ok r.aCrc) ∧
    (∀ img, b = some img → r.bSize.toNat = img.length ∧ r.bSize.toNat % 4 = 0 ∧ crcCompute img = .ok r.bCrc) ∧
    (a = none → r.aSize = 0#32 ∧ r.aCrc = 0xFFFFFFFF#32) ∧
    (b = none → r.bSize = 0#32 ∧ r.bCrc = 0xFFFFFFFF#32) ∧
    ((sel = 0 ∧ r.flag = c.flagA) ∨ (sel = 1 ∧ r.flag = c.flagB))

/-- The known ambiguity, exactly (43_metadata.md R200): an absent bank and a present empty image give one entry, every
longer image gives another size, and the one word whose checksum is the sentinel is `0xB9509BB6`. -/
def Obligations.AbsentBankAmbiguity : Prop :=
  (∀ (c : Config) (r : Region),
    bankEntry c none r = .ok { size := 0#32, crc := 0xFFFFFFFF#32 } ∧
    bankEntry c (some []) r = .ok { size := 0#32, crc := 0xFFFFFFFF#32 }) ∧
  (∀ (c : Config) (r : Region) (img : List Byte) (e : BankEntry), img ≠ [] → bankEntry c (some img) r = .ok e →
    e.size ≠ 0#32) ∧
  (∀ w : Word, crcWord 0xFFFFFFFF#32 w = 0xFFFFFFFF#32 ↔ w = 0xB9509BB6#32)

/-- The record of two absent banks (43_metadata.md R202). -/
def Obligations.AbsentBanksRecord : Prop :=
  ∀ s : State, s.fatal = false → s.in0 = none → s.in1 = none →
    ∃ t, exec (.metaBuild 0) s = .next t ∧
      resultCells cfg t =
        [some (cfg.flagA.setWidth 32), some 0#32, some 0#32, some 0xFFFFFFFF#32, some 0xFFFFFFFF#32] ∧
      t.last.out = some ([cfg.flagA] ++ List.replicate 11 0x00#8 ++ List.replicate 8 0xFF#8)

/-! ### Reset, invariant, views, host -/

/-- The state after reset and what its registers read as (10_state.md R37). -/
def Obligations.ResetState : Prop :=
  let s := State.reset
  s.fatal = !layoutValid cfg ∧ s.acc = 0xFFFFFFFF#32 ∧ s.arg0 = 0#32 ∧ s.in0 = none ∧ s.in1 = none ∧
  s.last = .idle ∧ statusWord s = bitWord s.fatal 3 ∧ readReg cfg s .errCode = some 0#32 ∧
  readReg cfg s .errDeclared = some 0#32 ∧ readReg cfg s .errLimit = some 0#32 ∧
  resultCells cfg s = [none, none, none, none, none] ∧ s.last.out = none ∧ readReg cfg s .outLen = some 0#32 ∧
  readReg cfg s .in0Len = some 0#32 ∧ readReg cfg s .in1Len = some 0#32 ∧ readReg cfg s .inPresent = some 0#32

/-- The invariant holds after reset (10_state.md R37). -/
def Obligations.InvariantAtReset : Prop := Inv cfg State.reset

/-- Every step, of every host action and every command, keeps the invariant: `FATAL` is the layout's verdict, the buffers
are within `MAX_LEN`, and the latch holds only what a command can write (10_state.md R21, R27, R30; 60_exceptions.md
R240). -/
def Obligations.InvariantKeptByEveryStep : Prop :=
  ∀ s t : State, Inv cfg s → step s = .next t → Inv cfg t

/-- `STATUS` bit by bit (10_state.md R31). -/
def Obligations.StatusRegisterFields : Prop :=
  ∀ s : State,
    let w := statusWord s
    readReg cfg s .status = some w ∧
    (w.getLsbD 0 = true ↔ s.last ≠ .idle) ∧
    (w.getLsbD 1 = true ↔ ∃ op e, s.last = .error op e) ∧
    (w.getLsbD 2 = true ↔ ∃ op m hs, s.last = .merged op m hs ∧ hs ≠ .present) ∧
    w.getLsbD 3 = s.fatal ∧
    (w.extractLsb' 4 2 = 1#2 ↔
      (∃ op h, s.last = .hdr op (.present h)) ∨ ∃ op m, s.last = .merged op m .present) ∧
    (w.extractLsb' 4 2 = 2#2 ↔ (∃ op, s.last = .hdr op .absentShort) ∨ ∃ op m, s.last = .merged op m .short) ∧
    (w.extractLsb' 4 2 = 3#2 ↔
      (∃ op m, s.last = .hdr op (.absentMagic m)) ∨ ∃ op m, s.last = .merged op m .badMagic) ∧
    (w.getLsbD 6 = true ↔ (∃ op r b, s.last = .built op r b) ∨ ∃ op m hs, s.last = .merged op m hs) ∧
    w.getLsbD 7 = false ∧ w.extractLsb' 8 8 = s.last.opField ∧ w.extractLsb' 16 16 = 0#16

/-- `ERR_CODE`, `ERR_DECLARED` and `ERR_LIMIT` (10_state.md R32, 30_encoding.md R108). -/
def Obligations.ErrorRegistersView : Prop :=
  ∀ s : State,
    (∀ op e, s.last = .error op e →
      readReg cfg s .errCode = some (match e with
        | .invalidInputLength => 1#32
        | .sizeExceeded _ _ => 2#32
        | .invalidArgument => 3#32
        | .illegalCommand => 4#32
        | .layoutInvalid => 5#32
        | .operandAbsent => 6#32)) ∧
    (∀ op d l, s.last = .error op (.sizeExceeded d l) →
      readReg cfg s .errDeclared = some (BitVec.ofNat 32 d) ∧ readReg cfg s .errLimit = some (BitVec.ofNat 32 l)) ∧
    (∀ op e, s.last = .error op e → (∀ d l, e ≠ .sizeExceeded d l) →
      readReg cfg s .errDeclared = some 0#32 ∧ readReg cfg s .errLimit = some 0#32) ∧
    ((∀ op e, s.last ≠ .error op e) →
      readReg cfg s .errCode = some 0#32 ∧ readReg cfg s .errDeclared = some 0#32 ∧
      readReg cfg s .errLimit = some 0#32)

/-- `RES0` to `RES4`, case by case of the latch; a cell the last command did not produce has no value (10_state.md
R34). -/
def Obligations.ResultRegistersView : Prop :=
  ∀ s : State, resultCells cfg s = match s.last with
    | .idle => [none, none, none, none, none]
    | .done _ => [none, none, none, none, none]
    | .error _ _ => [none, none, none, none, none]
    | .crc _ v => [some v, none, none, none, none]
    | .hdr _ (.present h) => [some h.magic, some h.version, some h.declaredSize, some h.crc32, some h.flags]
    | .hdr _ (.absentMagic m) => [some m, none, none, none, none]
    | .hdr _ .absentShort => [none, none, none, none, none]
    | .built _ r _ => [some (r.flag.setWidth 32), some r.aSize, some r.bSize, some r.aCrc, some r.bCrc]
    | .metaParsed _ r => [some (r.flag.setWidth 32), some r.aSize, some r.bSize, some r.aCrc, some r.bCrc]
    | .merged _ _ _ => [some (BitVec.ofNat 32 cfg.appOffset), none, none, none, none]

/-- The register list: which register stands at which of the 25 offsets; the word offsets below `0x64` are the only ones
that name a register, every register has its place, and only one (10_state.md R33, 20_memory.md R60). -/
def Obligations.RegisterMap : Prop :=
  (Reg.ofOffset 0x00 = some .cmd ∧ Reg.ofOffset 0x04 = some .status ∧ Reg.ofOffset 0x08 = some .errCode ∧
    Reg.ofOffset 0x0C = some .errDeclared ∧ Reg.ofOffset 0x10 = some .errLimit ∧ Reg.ofOffset 0x14 = some .arg0 ∧
    Reg.ofOffset 0x18 = some .acc ∧ Reg.ofOffset 0x1C = some .res0 ∧ Reg.ofOffset 0x20 = some .res1 ∧
    Reg.ofOffset 0x24 = some .res2 ∧ Reg.ofOffset 0x28 = some .res3 ∧ Reg.ofOffset 0x2C = some .res4 ∧
    Reg.ofOffset 0x30 = some .in0Len ∧ Reg.ofOffset 0x34 = some .in1Len ∧ Reg.ofOffset 0x38 = some .inPresent ∧
    Reg.ofOffset 0x3C = some .outLen ∧ Reg.ofOffset 0x40 = some .cfgBootBase ∧
    Reg.ofOffset 0x44 = some .cfgBootSize ∧ Reg.ofOffset 0x48 = some .cfgBankABase ∧
    Reg.ofOffset 0x4C = some .cfgBankBBase ∧ Reg.ofOffset 0x50 = some .cfgBankSize ∧
    Reg.ofOffset 0x54 = some .cfgDataBase ∧ Reg.ofOffset 0x58 = some .cfgDataSize ∧
    Reg.ofOffset 0x5C = some .cfgFlags ∧ Reg.ofOffset 0x60 = some .cfgAppOffset) ∧
  (∀ off, (∃ r, Reg.ofOffset off = some r) ↔ off % 4 = 0 ∧ off < 0x64) ∧
  (∀ r, ∃ off, Reg.ofOffset off = some r) ∧
  (∀ off off' r, Reg.ofOffset off = some r → Reg.ofOffset off' = some r → off = off')

/-- A host read (20_memory.md R66, R68; 30_encoding.md R111): it delivers the register's value and changes nothing else;
an access that is not an aligned word, an unlisted offset and a cell without value are refused. -/
def Obligations.HostReadDelivers : Prop :=
  ∀ (s : State) (width off : Nat) (rest : List HostAction), s.pending = .readReg width off :: rest →
    ((width ≠ 4 ∨ off % 4 ≠ 0) → step s = .refused (.notAlignedWord width off)) ∧
    (width = 4 → off % 4 = 0 → Reg.ofOffset off = none → step s = .refused (.unmappedOffset off)) ∧
    (width = 4 → off % 4 = 0 → ∀ r, Reg.ofOffset off = some r →
      (readReg cfg s r = none → step s = .refused (.noResultValue r)) ∧
      ∀ v, readReg cfg s r = some v → step s = .next { s with pending := rest, replies := .word v :: s.replies })

/-- Accesses off the map (30_encoding.md R111) and the write of `ARG0` (10_state.md R26): a write of a read-only register
is ignored, a read of `CMD` gives 0, a read or write at an unlisted offset is refused, and none of these touches `LAST`. -/
def Obligations.HostWriteOutsideCmd : Prop :=
  (∀ (s : State) (off : Nat) (rest : List HostAction), s.pending = .readReg 4 off :: rest →
    (off = 0 → step s = .next { s with pending := rest, replies := .word 0#32 :: s.replies }) ∧
    (off % 4 = 0 → Reg.ofOffset off = none → step s = .refused (.unmappedOffset off))) ∧
  ∀ (s : State) (width off : Nat) (v : Word) (rest : List HostAction), s.pending = .writeReg width off v :: rest →
    ((width ≠ 4 ∨ off % 4 ≠ 0) → step s = .refused (.notAlignedWord width off)) ∧
    (width = 4 → off % 4 = 0 → Reg.ofOffset off = none → step s = .refused (.unmappedOffset off)) ∧
    (width = 4 → off = 0x14 → step s = .next { s with pending := rest, arg0 := v }) ∧
    (width = 4 → off % 4 = 0 → ∀ r, Reg.ofOffset off = some r → r ≠ .cmd → r ≠ .arg0 →
      step s = .next { s with pending := rest })

/-- `HostLoad` and `HostClear` (10_state.md R29). -/
def Obligations.HostLoadsAndClearsBuffers : Prop :=
  ∀ (s : State) (rest : List HostAction),
    (∀ b : List Byte, b.length ≤ 2 ^ 32 - 1 →
      (s.pending = .load .in0 b :: rest → step s = .next { s with pending := rest, in0 := some b }) ∧
      (s.pending = .load .in1 b :: rest → step s = .next { s with pending := rest, in1 := some b })) ∧
    (s.pending = .clear .in0 :: rest → step s = .next { s with pending := rest, in0 := none }) ∧
    (s.pending = .clear .in1 :: rest → step s = .next { s with pending := rest, in1 := none })

/-- `HostReadOut(off, n)` (10_state.md R35): defined exactly when `OUT` exists and holds the range, and then it delivers
those bytes and changes nothing else. -/
def Obligations.HostReadOutDelivers : Prop :=
  ∀ (s : State) (off n : Nat) (rest : List HostAction), s.pending = .readOut off n :: rest →
    (∀ b, s.last.out = some b → off + n ≤ b.length →
      ∃ bs, step s = .next { s with pending := rest, replies := .bytes bs :: s.replies } ∧ bs.length = n ∧
        ∀ k, k < n → bs[k]? = b[off + k]?) ∧
    (∀ b, s.last.out = some b → b.length < off + n → step s = .refused (.noOutput off n)) ∧
    (s.last.out = none → step s = .refused (.noOutput off n))

/-- The reset input, in any state (70_reset_and_hazards.md R281, R282); that the host's stream goes on is the model's own
choice (notes/assumptions/2.md). -/
def Obligations.ResetActionRestoresResetState : Prop :=
  ∀ (s : State) (rest : List HostAction), s.pending = .reset :: rest →
    step s = .next { State.reset with pending := rest, replies := s.replies }

/-- The nine `CFG_*` registers read the configuration in every state, valid layout or not; `CFG_APP_OFFSET` reads
`(APP_BASE - BOOT_BASE) mod 2^32`, `APP_BASE` being `BANK_A_BASE` (10_state.md R20, R33; 42_layout.md R175). -/
def Obligations.ConfigurationRegistersAreConstant : Prop :=
  ∀ (c : Config) (s : State),
    readReg c s .cfgBootBase = some c.bootBase ∧ readReg c s .cfgBootSize = some 8192#32 ∧
    readReg c s .cfgBankABase = some c.bankABase ∧ readReg c s .cfgBankBBase = some c.bankBBase ∧
    readReg c s .cfgBankSize = some c.bankSize ∧ readReg c s .cfgDataBase = some c.dataBase ∧
    readReg c s .cfgDataSize = some c.dataSize ∧
    (∃ v, readReg c s .cfgAppOffset = some v ∧
      (v.toNat : Int) = ((c.bankABase.toNat : Int) - (c.bootBase.toNat : Int)) % 2 ^ 32) ∧
    ∃ w, readReg c s .cfgFlags = some w ∧ w.extractLsb' 0 8 = c.flagA ∧ w.extractLsb' 8 8 = c.flagB ∧
      w.extractLsb' 16 16 = 0#16

/-- A step stops exactly on a host action without defined effect (93_implementation_defined.md U1, U2, U13); every other
access goes on, and so does every command (70_reset_and_hazards.md R292). That a step of an idle block, with no host action
pending, answers a next state is the model's own choice (DESIGN CHOICE, notes/assumptions/11.md): the spec has no such step. -/
def Obligations.StepStopsOnlyOnUndefinedActions : Prop :=
  ∀ s : State, (∃ t, step s = .next t) ↔ ∀ a rest, s.pending = a :: rest → a.defined cfg s = true

/-- Results live until the next command (70_reset_and_hazards.md R287): a step that is no command and no reset leaves the
latch, and with it `OUT` and every register but `ARG0` and the three views of the input buffers. -/
def Obligations.ResultsLiveUntilNextCommand : Prop :=
  ∀ s t : State, (∀ a rest, s.pending = a :: rest → a.replacesLast = false) → step s = .next t →
    t.last = s.last ∧ t.acc = s.acc ∧ t.last.out = s.last.out ∧
    ∀ r : Reg, r ≠ .arg0 → r ≠ .in0Len → r ≠ .in1Len → r ≠ .inPresent → readReg cfg t r = readReg cfg s r

/-- No length is truncated by a register (20_memory.md R74, 00_scope.md R16): in a consistent state `OUT_LEN`, `IN0_LEN`,
`IN1_LEN` and `ERR_DECLARED` read the exact numbers. -/
def Obligations.LengthRegistersAreExact : Prop :=
  ∀ (c : Config) (s : State), Inv c s →
    (∃ w, readReg c s .outLen = some w ∧ w.toNat = s.last.outLen) ∧
    (∃ w, readReg c s .in0Len = some w ∧ w.toNat = Memory.len s.in0) ∧
    (∃ w, readReg c s .in1Len = some w ∧ w.toNat = Memory.len s.in1) ∧
    ∀ op d l, s.last = .error op (.sizeExceeded d l) →
      ∃ w v, readReg c s .errDeclared = some w ∧ w.toNat = d ∧ readReg c s .errLimit = some v ∧ v.toNat = l

/-- What a read of `ARG0`, `ACC` and `IN_PRESENT` gives in every state (10_state.md R33): the two registers themselves, and
bit 0 for the presence of `IN0`, bit 1 for that of `IN1`, bits 31:2 zero. -/
def Obligations.OperandAndPresenceRegistersView : Prop :=
  ∀ (c : Config) (s : State),
    readReg c s .arg0 = some s.arg0 ∧ readReg c s .acc = some s.acc ∧
    ∃ w, readReg c s .inPresent = some w ∧ (w.getLsbD 0 = true ↔ ∃ b, s.in0 = some b) ∧
      (w.getLsbD 1 = true ↔ ∃ b, s.in1 = some b) ∧ w.extractLsb' 2 30 = 0#30
end

