-- ==== Sys2Proof/Laws/State.lean ====
section
/-! SUPPORT. One lemma per field per update of the state: each update writes its own field and leaves every other. -/

namespace Sys2Proof.Machine

variable (s : State) (v : Word) (l : Last) (op : Byte) (e : CmdError) (m : Memory) (r : Reply)

@[simp] theorem State.latch_fatal : (s.latch l).fatal = s.fatal := rfl
@[simp] theorem State.latch_acc : (s.latch l).acc = s.acc := rfl
@[simp] theorem State.latch_arg0 : (s.latch l).arg0 = s.arg0 := rfl
@[simp] theorem State.latch_in0 : (s.latch l).in0 = s.in0 := rfl
@[simp] theorem State.latch_in1 : (s.latch l).in1 = s.in1 := rfl
@[simp] theorem State.latch_last : (s.latch l).last = l := rfl
@[simp] theorem State.latch_pending : (s.latch l).pending = s.pending := rfl
@[simp] theorem State.latch_replies : (s.latch l).replies = s.replies := rfl

@[simp] theorem State.raise_fatal : (s.raise op e).fatal = s.fatal := rfl
@[simp] theorem State.raise_acc : (s.raise op e).acc = s.acc := rfl
@[simp] theorem State.raise_arg0 : (s.raise op e).arg0 = s.arg0 := rfl
@[simp] theorem State.raise_in0 : (s.raise op e).in0 = s.in0 := rfl
@[simp] theorem State.raise_in1 : (s.raise op e).in1 = s.in1 := rfl
@[simp] theorem State.raise_last : (s.raise op e).last = .error op e := rfl
@[simp] theorem State.raise_pending : (s.raise op e).pending = s.pending := rfl
@[simp] theorem State.raise_replies : (s.raise op e).replies = s.replies := rfl

@[simp] theorem State.setAcc_fatal : (s.setAcc v).fatal = s.fatal := rfl
@[simp] theorem State.setAcc_acc : (s.setAcc v).acc = v := rfl
@[simp] theorem State.setAcc_arg0 : (s.setAcc v).arg0 = s.arg0 := rfl
@[simp] theorem State.setAcc_in0 : (s.setAcc v).in0 = s.in0 := rfl
@[simp] theorem State.setAcc_in1 : (s.setAcc v).in1 = s.in1 := rfl
@[simp] theorem State.setAcc_last : (s.setAcc v).last = s.last := rfl
@[simp] theorem State.setAcc_pending : (s.setAcc v).pending = s.pending := rfl
@[simp] theorem State.setAcc_replies : (s.setAcc v).replies = s.replies := rfl

@[simp] theorem State.setArg0_fatal : (s.setArg0 v).fatal = s.fatal := rfl
@[simp] theorem State.setArg0_acc : (s.setArg0 v).acc = s.acc := rfl
@[simp] theorem State.setArg0_arg0 : (s.setArg0 v).arg0 = v := rfl
@[simp] theorem State.setArg0_in0 : (s.setArg0 v).in0 = s.in0 := rfl
@[simp] theorem State.setArg0_in1 : (s.setArg0 v).in1 = s.in1 := rfl
@[simp] theorem State.setArg0_last : (s.setArg0 v).last = s.last := rfl
@[simp] theorem State.setArg0_pending : (s.setArg0 v).pending = s.pending := rfl
@[simp] theorem State.setArg0_replies : (s.setArg0 v).replies = s.replies := rfl

@[simp] theorem State.reply_fatal : (s.reply r).fatal = s.fatal := rfl
@[simp] theorem State.reply_acc : (s.reply r).acc = s.acc := rfl
@[simp] theorem State.reply_arg0 : (s.reply r).arg0 = s.arg0 := rfl
@[simp] theorem State.reply_in0 : (s.reply r).in0 = s.in0 := rfl
@[simp] theorem State.reply_in1 : (s.reply r).in1 = s.in1 := rfl
@[simp] theorem State.reply_last : (s.reply r).last = s.last := rfl
@[simp] theorem State.reply_pending : (s.reply r).pending = s.pending := rfl
@[simp] theorem State.reply_replies : (s.reply r).replies = r :: s.replies := rfl

@[simp] theorem State.setBuf_in0_in0 : (s.setBuf .in0 m).in0 = m := rfl
@[simp] theorem State.setBuf_in0_in1 : (s.setBuf .in0 m).in1 = s.in1 := rfl
@[simp] theorem State.setBuf_in1_in0 : (s.setBuf .in1 m).in0 = s.in0 := rfl
@[simp] theorem State.setBuf_in1_in1 : (s.setBuf .in1 m).in1 = m := rfl
@[simp] theorem State.setBuf_fatal (i : Buf) : (s.setBuf i m).fatal = s.fatal := by cases i <;> rfl
@[simp] theorem State.setBuf_acc (i : Buf) : (s.setBuf i m).acc = s.acc := by cases i <;> rfl
@[simp] theorem State.setBuf_arg0 (i : Buf) : (s.setBuf i m).arg0 = s.arg0 := by cases i <;> rfl
@[simp] theorem State.setBuf_last (i : Buf) : (s.setBuf i m).last = s.last := by cases i <;> rfl
@[simp] theorem State.setBuf_pending (i : Buf) : (s.setBuf i m).pending = s.pending := by cases i <;> rfl
@[simp] theorem State.setBuf_replies (i : Buf) : (s.setBuf i m).replies = s.replies := by cases i <;> rfl

/-- Reading a buffer after replacing it gives what was put there. -/
@[simp] theorem State.buf_setBuf_same (i : Buf) : (s.setBuf i m).buf i = m := by cases i <;> rfl

/-- Replacing a buffer leaves the other one. -/
theorem State.buf_setBuf_other {i j : Buf} (h : i ≠ j) : (s.setBuf i m).buf j = s.buf j := by
  cases i <;> cases j <;> first | rfl | exact absurd rfl h

end Sys2Proof.Machine
end

