-- ==== Sys2Proof/Laws/Ops.lean ====
section
/-! SUPPORT. What each shared operation can do, said once: the end of a command, the operand checks, the buffers' canonical
form, and the host's accesses. -/

namespace Sys2Proof.Machine

/-! ### The end of a command -/

@[simp] theorem State.finish_ok (s : State) (op : Byte) (l : Last) : s.finish op (.ok l) = s.latch l := rfl

@[simp] theorem State.finish_error (s : State) (op : Byte) (e : CmdError) :
    s.finish op (.error e) = s.raise op e := rfl

/-- `finish` writes `LAST` and nothing else. -/
theorem State.finish_eq (s : State) (op : Byte) (r : Except CmdError Last) :
    ∃ l, s.finish op r = { s with last := l } := by
  cases r with
  | ok l => exact ⟨l, rfl⟩
  | error e => exact ⟨.error op e, rfl⟩

/-- What `finish` latches: a result that was computed, or the error that was met. -/
theorem State.finish_last (s : State) (op : Byte) (r : Except CmdError Last) :
    (∃ l, r = .ok l ∧ (s.finish op r).last = l) ∨ (∃ e, r = .error e ∧ (s.finish op r).last = .error op e) := by
  cases r with
  | ok l => exact .inl ⟨l, rfl, rfl⟩
  | error e => exact .inr ⟨e, rfl, rfl⟩

/-! ### Checks in sequence -/

/-- A sequence of two checks succeeds exactly when both do. -/
theorem bind_eq_ok {ε α β : Type} {x : Except ε α} {f : α → Except ε β} {b : β} :
    (x >>= f) = .ok b ↔ ∃ a, x = .ok a ∧ f a = .ok b := by
  cases x <;> simp [bind, Except.bind]

/-- A sequence of two checks fails with the first failure. -/
theorem bind_eq_error {ε α β : Type} {x : Except ε α} {f : α → Except ε β} {e : ε} :
    (x >>= f) = .error e ↔ x = .error e ∨ ∃ a, x = .ok a ∧ f a = .error e := by
  cases x <;> simp [bind, Except.bind]

theorem requirePresent_eq_ok {m : Memory} {b : List Byte} : requirePresent m = .ok b ↔ m = some b := by
  cases m <;> simp [requirePresent]

theorem requirePresent_eq_error {m : Memory} {e : CmdError} :
    requirePresent m = .error e ↔ m = none ∧ e = .operandAbsent := by
  cases m <;> simp [requirePresent, eq_comm]

theorem requireLayout_eq_ok {s : State} : requireLayout s = .ok () ↔ s.fatal = false := by
  cases h : s.fatal <;> simp [requireLayout, h]

theorem requireLayout_eq_error {s : State} {e : CmdError} :
    requireLayout s = .error e ↔ s.fatal = true ∧ e = .layoutInvalid := by
  cases h : s.fatal <;> simp [requireLayout, h, eq_comm]

theorem bankOperand_eq_ok {sel : Nat} : bankOperand sel = .ok () ↔ sel ≤ 1 := by
  by_cases h : sel > 1
  · simp [bankOperand, h]
  · simp [bankOperand, h, Nat.not_lt.1 h]

theorem bankOperand_eq_error {sel : Nat} {e : CmdError} :
    bankOperand sel = .error e ↔ 1 < sel ∧ e = .invalidArgument := by
  by_cases h : sel > 1 <;> simp [bankOperand, h, eq_comm]

theorem fits_eq_ok {c : Config} {n : Nat} {r : Region} : fits c n r = .ok () ↔ n ≤ regionSize c r := by
  by_cases h : n ≤ regionSize c r <;> simp [fits, h]

theorem fits_eq_error {c : Config} {n : Nat} {r : Region} {e : CmdError} :
    fits c n r = .error e ↔ regionSize c r < n ∧ e = .sizeExceeded n (regionSize c r) := by
  by_cases h : n ≤ regionSize c r
  · simp [fits, h, Nat.not_lt.2 h]
  · simp [fits, h, Nat.lt_of_not_le h, eq_comm]

/-! ### The canonical form of the input buffers -/

theorem Memory.wf_none : Memory.wf none = true := rfl

theorem Memory.wf_some {b : List Byte} : Memory.wf (some b) = true ↔ b.length ≤ maxLen := by
  simp [Memory.wf]

/-- Replacing a buffer by a well-formed one keeps both well-formed. -/
theorem State.setBuf_wf {s : State} (i : Buf) {m : Memory} (hm : Memory.wf m = true)
    (h0 : Memory.wf s.in0 = true) (h1 : Memory.wf s.in1 = true) :
    Memory.wf (s.setBuf i m).in0 = true ∧ Memory.wf (s.setBuf i m).in1 = true := by
  cases i <;> simp_all

/-- `HostLoad` keeps both buffers well-formed. -/
theorem hostLoad_wf {s t : State} {i : Buf} {b : List Byte} (h : hostLoad i b s = .next t)
    (h0 : Memory.wf s.in0 = true) (h1 : Memory.wf s.in1 = true) :
    Memory.wf t.in0 = true ∧ Memory.wf t.in1 = true := by
  unfold hostLoad at h
  split at h
  · rename_i hb
    cases h
    exact State.setBuf_wf i (Memory.wf_some.2 hb) h0 h1
  · cases h

/-- `HostClear` keeps both buffers well-formed. -/
theorem hostClear_wf {s : State} (i : Buf) (h0 : Memory.wf s.in0 = true) (h1 : Memory.wf s.in1 = true) :
    Memory.wf (s.setBuf i none).in0 = true ∧ Memory.wf (s.setBuf i none).in1 = true :=
  State.setBuf_wf i Memory.wf_none h0 h1

/-- After reset both buffers are well-formed. -/
theorem reset_wf (c : Config) : Memory.wf (State.resetAt c).in0 = true ∧ Memory.wf (State.resetAt c).in1 = true :=
  ⟨rfl, rfl⟩

/-! ### Byte order -/

@[simp] theorem bytesLe32_length (v : Word) : (bytesLe32 v).length = 4 := rfl

/-- Assembling the bytes of a word gives the word. -/
theorem le32_bytes (v : Word) :
    le32 (v.extractLsb' 0 8) (v.extractLsb' 8 8) (v.extractLsb' 16 8) (v.extractLsb' 24 8) = v := by
  apply BitVec.eq_of_getLsbD_eq
  intro k hk
  simp [le32]
  grind

/-- A byte inside the sequence is the one at that place: the value beyond the end is not read. -/
theorem byteAt_eq_getElem {b : List Byte} {i : Nat} (h : i < b.length) : byteAt b i = b[i] := by
  simp [byteAt, h]

@[simp] theorem wordsLe_nil : wordsLe [] = [] := rfl

@[simp] theorem wordsLe_cons (b0 b1 b2 b3 : Byte) (rest : List Byte) :
    wordsLe (b0 :: b1 :: b2 :: b3 :: rest) = le32 b0 b1 b2 b3 :: wordsLe rest := rfl

/-! ### The checksum's accumulator -/

@[simp] theorem crcFold_nil (a : Word) : crcFold a [] = a := rfl

@[simp] theorem crcFold_cons (a w : Word) (ws : List Word) : crcFold a (w :: ws) = crcFold (crcWord a w) ws := rfl

theorem crcCompute_eq_ok {d : List Byte} {v : Word} :
    crcCompute d = .ok v ↔ d.length % 4 = 0 ∧ v = crcFold crcInitial (wordsLe d) := by
  by_cases h : d.length % 4 = 0 <;> simp [crcCompute, h, eq_comm]

theorem crcCompute_eq_error {d : List Byte} {e : CmdError} :
    crcCompute d = .error e ↔ d.length % 4 ≠ 0 ∧ e = .invalidInputLength := by
  by_cases h : d.length % 4 = 0 <;> simp [crcCompute, h, eq_comm]

/-! ### Host accesses -/

/-- What a host read can do. -/
theorem hostRead_cases {c : Config} {width off : Nat} {s t : State} (h : hostRead c width off s = .next t) :
    ∃ reg v, accessReg width off = .ok reg ∧ readReg c s reg = some v ∧ t = s.reply (.word v) := by
  unfold hostRead at h
  split at h
  · cases h
  · split at h
    · cases h
      exact ⟨_, _, ‹_›, ‹_›, rfl⟩
    · cases h

/-- What a host write can do: issue a command, set `ARG0`, or nothing. -/
theorem hostWrite_cases {run : Instr → State → Host.Outcome State Fault Refusal} {width off : Nat} {v : Word}
    {s t : State} (h : hostWrite run width off v s = .next t) :
    (accessReg width off = .ok .cmd ∧ issue run v s = .next t) ∨
    (accessReg width off = .ok .arg0 ∧ t = s.setArg0 v) ∨
    (∃ reg, accessReg width off = .ok reg ∧ reg.writable = false ∧ t = s) := by
  unfold hostWrite at h
  split at h
  · cases h
  · exact .inl ⟨‹_›, h⟩
  · cases h
    exact .inr (.inl ⟨‹_›, rfl⟩)
  · rename_i reg hcmd harg _
    cases h
    refine .inr (.inr ⟨reg, ‹_›, ?_, rfl⟩)
    cases reg <;> first | rfl | exact absurd rfl hcmd | exact absurd rfl harg

/-- What `HostReadOut` can do. -/
theorem hostReadOut_cases {off n : Nat} {s t : State} (h : hostReadOut off n s = .next t) :
    ∃ b, s.last.out = some b ∧ off + n ≤ b.length ∧ t = s.reply (.bytes ((b.drop off).take n)) := by
  unfold hostReadOut at h
  split at h
  · split at h
    · cases h
      exact ⟨_, ‹_›, ‹_›, rfl⟩
    · cases h
  · cases h

end Sys2Proof.Machine
end

