-- ==== Sys2Proof/Laws/Exec.lean ====
section
/-! SUPPORT. The commands of the block are the configured commands at the block's own configuration. -/

namespace Sys2Proof.Machine

/-- Every command of the block takes a next state, the configured command's. -/
theorem exec_eq_commandAt (i : Instr) (s : State) : exec i s = .next (commandAt cfg i s) := by
  cases i <;> rfl

/-- A command that answers `t` answers the configured command's state. -/
theorem exec_next {i : Instr} {s t : State} (h : exec i s = .next t) : t = commandAt cfg i s := by
  rw [exec_eq_commandAt] at h
  cases h
  rfl

/-- Every command but the two streaming ones writes `LAST` and nothing else; those two also write `ACC`. -/
theorem commandAt_eq (c : Config) (i : Instr) (s : State) :
    ∃ l, commandAt c i s = { s with last := l, acc := (commandAt c i s).acc } := by
  cases i with
  | crcInit => exact ⟨_, rfl⟩
  | crcWord => exact ⟨_, rfl⟩
  | crcCompute sel => obtain ⟨l, h⟩ := s.finish_eq opcCrcCompute (crcComputeOutcome sel s); exact ⟨l, by simp [commandAt, crcComputeAt, h]⟩
  | hdrParse sel => obtain ⟨l, h⟩ := s.finish_eq opcHdrParse (hdrParseOutcome sel s); exact ⟨l, by simp [commandAt, hdrParseAt, h]⟩
  | fits sel => obtain ⟨l, h⟩ := s.finish_eq opcFits (fitsOutcome c sel s); exact ⟨l, by simp [commandAt, fitsAt, h]⟩
  | metaBuild sel => obtain ⟨l, h⟩ := s.finish_eq opcMetaBuild (metaBuildOutcome c sel s); exact ⟨l, by simp [commandAt, metaBuildAt, h]⟩
  | metaParse sel => obtain ⟨l, h⟩ := s.finish_eq opcMetaParse (metaParseOutcome c sel s); exact ⟨l, by simp [commandAt, metaParseAt, h]⟩
  | merge => obtain ⟨l, h⟩ := s.finish_eq opcMerge (mergeOutcome c s); exact ⟨l, by simp [commandAt, mergeAt, h]⟩

end Sys2Proof.Machine
end

