-- ==== Sys2Proof/Laws/PerInstr.lean ====
section
/-! SUPPORT. Family EncodedFields, per command: the word of a command carries its opcode, its selector (the low eight bits
of it) and a zero reserved field (30_encoding.md R90, R95). -/

namespace Sys2Proof.Laws.EncodedFields

/-- The three fields of the word a command is encoded as. -/
def Statement (i : Instr) : Prop :=
  fieldOpc (encode i) = i.opcode ∧ fieldSel (encode i) = BitVec.ofNat 8 i.selector ∧ fieldRsv (encode i) = 0#16

/-- The fields of a word put together from an opcode and a selector. -/
theorem fields_of_parts (sel opc : Byte) :
    fieldOpc (opc.setWidth 32 ||| (sel.setWidth 32 <<< 8)) = opc ∧
      fieldSel (opc.setWidth 32 ||| (sel.setWidth 32 <<< 8)) = sel ∧
      fieldRsv (opc.setWidth 32 ||| (sel.setWidth 32 <<< 8)) = 0#16 := by
  refine ⟨?_, ?_, ?_⟩ <;>
  · apply BitVec.eq_of_getLsbD_eq
    intro k hk
    have hopc := opc.getLsbD_of_ge
    have hsel := sel.getLsbD_of_ge
    simp [fieldOpc, fieldSel, fieldRsv]
    intros
    first | omega | grind

theorem crcInit : Statement .crcInit := fields_of_parts _ _
theorem crcWord : Statement .crcWord := fields_of_parts _ _
theorem crcCompute (sel : Nat) : Statement (.crcCompute sel) := fields_of_parts _ _
theorem hdrParse (sel : Nat) : Statement (.hdrParse sel) := fields_of_parts _ _
theorem fits (sel : Nat) : Statement (.fits sel) := fields_of_parts _ _
theorem metaBuild (sel : Nat) : Statement (.metaBuild sel) := fields_of_parts _ _
theorem metaParse (sel : Nat) : Statement (.metaParse sel) := fields_of_parts _ _
theorem merge : Statement .merge := fields_of_parts _ _

end Sys2Proof.Laws.EncodedFields
end

