-- ==== Sys2Proof/Laws/Step.lean ====
section
/-! SUPPORT. What a step can do, said once. -/

namespace Sys2Proof.Machine

/-- What a write to `CMD` can do: run the command the word decodes to, or take `IllegalCommand`. -/
theorem issue_cases {w : Word} {s t : State} (h : issue exec w s = .next t) :
    (∃ i, decode w = .ok i ∧ t = commandAt cfg i s) ∨
    (∃ e, decode w = .error e ∧ t = s.raise (fieldOpc w) .illegalCommand) := by
  unfold issue at h
  split at h
  · exact .inl ⟨_, ‹_›, exec_next h⟩
  · cases h
    exact .inr ⟨_, ‹_›, rfl⟩

/-- A step that answers `t` either had nothing to do, or took one action `a` off the host's stream and: ran a command, or
latched `IllegalCommand`, or set `ARG0`, or ignored a write of a read-only register, or delivered a value, or replaced an
input buffer by a well-formed one, or reset the block. -/
theorem step_cases {s t : State} (h : step s = .next t) :
    (s.pending = [] ∧ t = s) ∨
    ∃ a rest, s.pending = a :: rest ∧
      ((∃ width off v i, a = .writeReg width off v ∧ accessReg width off = .ok .cmd ∧ decode v = .ok i ∧
          t = commandAt cfg i { s with pending := rest }) ∨
        (∃ width off v e, a = .writeReg width off v ∧ accessReg width off = .ok .cmd ∧ decode v = .error e ∧
          t = State.raise { s with pending := rest } (fieldOpc v) .illegalCommand) ∨
        (∃ width off v, a = .writeReg width off v ∧ accessReg width off = .ok .arg0 ∧
          t = State.setArg0 { s with pending := rest } v) ∨
        (∃ width off v reg, a = .writeReg width off v ∧ accessReg width off = .ok reg ∧ reg.writable = false ∧
          t = { s with pending := rest }) ∨
        (∃ r, a.replacesLast = false ∧ t = State.reply { s with pending := rest } r) ∨
        (∃ i m, a.replacesLast = false ∧ Memory.wf m = true ∧ t = State.setBuf { s with pending := rest } i m) ∨
        (a = .reset ∧ t = hostReset cfg { s with pending := rest })) := by
  unfold step stepWith at h
  split at h
  · cases h
    exact .inl ⟨‹_›, rfl⟩
  · rename_i a rest hp
    refine .inr ⟨a, rest, hp, ?_⟩
    cases a with
    | readReg width off =>
      obtain ⟨_, v, _, _, rfl⟩ := hostRead_cases (show hostRead cfg width off _ = _ from h)
      exact .inr (.inr (.inr (.inr (.inl ⟨_, rfl, rfl⟩))))
    | writeReg width off v =>
      rcases hostWrite_cases (show hostWrite exec width off v _ = _ from h) with ⟨hr, h⟩ | ⟨hr, rfl⟩ | ⟨reg, hr, hw, rfl⟩
      · rcases issue_cases h with ⟨i, hi, rfl⟩ | ⟨e, he, rfl⟩
        · exact .inl ⟨_, _, _, i, rfl, hr, hi, rfl⟩
        · exact .inr (.inl ⟨_, _, _, e, rfl, hr, he, rfl⟩)
      · exact .inr (.inr (.inl ⟨_, _, _, rfl, hr, rfl⟩))
      · exact .inr (.inr (.inr (.inl ⟨_, _, _, reg, rfl, hr, hw, rfl⟩)))
    | load i b =>
      have h : hostLoad i b _ = _ := h
      unfold hostLoad at h
      split at h
      · cases h
        exact .inr (.inr (.inr (.inr (.inr (.inl ⟨i, some b, rfl, Memory.wf_some.2 ‹_›, rfl⟩)))))
      · cases h
    | clear i =>
      cases h
      exact .inr (.inr (.inr (.inr (.inr (.inl ⟨i, none, rfl, rfl, rfl⟩)))))
    | readOut off n =>
      obtain ⟨_, _, _, rfl⟩ := hostReadOut_cases (show hostReadOut off n _ = _ from h)
      exact .inr (.inr (.inr (.inr (.inl ⟨_, rfl, rfl⟩))))
    | reset =>
      cases h
      exact .inr (.inr (.inr (.inr (.inr (.inr ⟨rfl, rfl⟩)))))

end Sys2Proof.Machine
end

