-- ==== Sys2Proof/Laws/Units.lean ====
section
/-! SUPPORT. What the pure functions of the units answer, said once: the layout check, the merge, the record. -/

namespace Sys2Proof.Machine

/-- The layout check as its conjuncts, with the numbers written out. -/
theorem layoutValid_iff (c : Config) : layoutValid c = true ↔
    (c.bootBase.toNat < c.bankABase.toNat ∧ c.bankABase.toNat < c.bankBBase.toNat ∧
      c.bankBBase.toNat < c.dataBase.toNat) ∧
    c.bootBase.toNat + 8192 ≤ c.bankABase.toNat ∧
    c.bankABase.toNat + c.bankSize.toNat ≤ c.bankBBase.toNat ∧
    c.bankBBase.toNat + c.bankSize.toNat ≤ c.dataBase.toNat ∧
    c.dataBase.toNat + c.dataSize.toNat ≤ 2 ^ 32 ∧
    20 ≤ c.dataSize.toNat ∧
    c.flagA ≠ c.flagB := by
  unfold layoutValid
  rw [decide_eq_true_eq]
  rfl

/-- The addresses of a region as two inequalities. -/
theorem inRegion_iff (c : Config) (r : Region) (a : Nat) :
    inRegion c r a = true ↔ regionBase c r ≤ a ∧ a < regionBase c r + regionSize c r := by
  unfold inRegion
  rw [decide_eq_true_eq]

/-- A merge succeeds exactly when both images are within their budgets, and then the output is the bootloader, the fill
and the application. -/
theorem merge_eq_ok {c : Config} {boot app m : List Byte} : merge c boot app = .ok m ↔
    boot.length ≤ bootSize ∧ app.length ≤ c.appSize.toNat ∧
      m = boot ++ List.replicate (c.appOffset - boot.length) erased ++ app := by
  simp only [merge, bind_eq_ok]
  constructor
  · rintro ⟨_, h1, _, h2, h3⟩
    cases h3
    exact ⟨fits_eq_ok.1 h1, fits_eq_ok.1 h2, rfl⟩
  · rintro ⟨h1, h2, rfl⟩
    exact ⟨(), fits_eq_ok.2 h1, (), fits_eq_ok.2 h2, rfl⟩

/-- A merge fails with the budget that is exceeded, the bootloader's first. -/
theorem merge_eq_error {c : Config} {boot app : List Byte} {e : CmdError} : merge c boot app = .error e ↔
    (bootSize < boot.length ∧ e = .sizeExceeded boot.length bootSize) ∨
    (boot.length ≤ bootSize ∧ c.appSize.toNat < app.length ∧ e = .sizeExceeded app.length c.appSize.toNat) := by
  simp only [merge, bind_eq_error]
  constructor
  · rintro (h | ⟨_, h1, h | ⟨_, _, h⟩⟩)
    · exact .inl (fits_eq_error.1 h)
    · exact .inr ⟨fits_eq_ok.1 h1, (fits_eq_error.1 h).1, (fits_eq_error.1 h).2⟩
    · cases h
  · rintro (h | ⟨h1, h2, rfl⟩)
    · exact .inl (fits_eq_error.2 h)
    · exact .inr ⟨(), fits_eq_ok.2 h1, .inl (fits_eq_error.2 ⟨h2, rfl⟩)⟩

/-- The entry of a present image: its length and its checksum, where both checks pass. -/
theorem bankEntry_some_eq_ok {c : Config} {b : List Byte} {r : Region} {e : BankEntry} :
    bankEntry c (some b) r = .ok e ↔
      b.length ≤ regionSize c r ∧ b.length % 4 = 0 ∧
        e = { size := BitVec.ofNat 32 b.length, crc := crcFold crcInitial (wordsLe b) } := by
  simp only [bankEntry, bind_eq_ok]
  constructor
  · rintro ⟨_, h1, v, h2, h3⟩
    obtain ⟨h4, rfl⟩ := crcCompute_eq_ok.1 h2
    cases h3
    exact ⟨fits_eq_ok.1 h1, h4, rfl⟩
  · rintro ⟨h1, h2, rfl⟩
    exact ⟨(), fits_eq_ok.2 h1, _, crcCompute_eq_ok.2 ⟨h2, rfl⟩, rfl⟩

/-- An entry fails with the budget first, then the length. -/
theorem bankEntry_eq_error {c : Config} {m : Memory} {r : Region} {e : CmdError} : bankEntry c m r = .error e ↔
    ∃ b, m = some b ∧
      ((regionSize c r < b.length ∧ e = .sizeExceeded b.length (regionSize c r)) ∨
        (b.length ≤ regionSize c r ∧ b.length % 4 ≠ 0 ∧ e = .invalidInputLength)) := by
  cases m with
  | none => simp [bankEntry]
  | some b =>
    simp only [bankEntry, bind_eq_error, Option.some.injEq]
    constructor
    · rintro (h | ⟨_, h1, h | ⟨_, _, h⟩⟩)
      · exact ⟨b, rfl, .inl (fits_eq_error.1 h)⟩
      · exact ⟨b, rfl, .inr ⟨fits_eq_ok.1 h1, crcCompute_eq_error.1 h⟩⟩
      · cases h
    · rintro ⟨_, rfl, h | ⟨h1, h2⟩⟩
      · exact .inl (fits_eq_error.2 h)
      · exact .inr ⟨(), fits_eq_ok.2 h1, .inl (crcCompute_eq_error.2 h2)⟩

/-- A build succeeds exactly when the selector is legal and both entries exist, and then the record is made of them. -/
theorem metaBuild_eq_ok {c : Config} {sel : Nat} {a b : Memory} {r : MetaRecord} : metaBuild c sel a b = .ok r ↔
    sel ≤ 1 ∧ ∃ ea eb, bankEntry c a .bankA = .ok ea ∧ bankEntry c b .bankB = .ok eb ∧
      r = { flag := if sel = 0 then c.flagA else c.flagB
            aSize := ea.size, bSize := eb.size, aCrc := ea.crc, bCrc := eb.crc } := by
  simp only [metaBuild, bind_eq_ok]
  constructor
  · rintro ⟨_, h0, ea, h1, eb, h2, h3⟩
    cases h3
    exact ⟨bankOperand_eq_ok.1 h0, ea, eb, h1, h2, rfl⟩
  · rintro ⟨h0, ea, eb, h1, h2, rfl⟩
    exact ⟨(), bankOperand_eq_ok.2 h0, ea, h1, eb, h2, rfl⟩

@[simp] theorem metaSerialize_length (r : MetaRecord) : (metaSerialize r).length = 20 := rfl

end Sys2Proof.Machine
end

