-- ==== Sys2Proof/Tests/Slice0.lean ====
section
/-! SUPPORT. The model's own tests: the well-formedness checks on ill-formed terms, decoding of words written out from the
spec's encoding, vectors of spec/95_test_vectors.md at its fixture T, and for each statement with hypotheses a witness that
meets them. Every expected value is the spec's. -/

open Sys2Proof Sys2Proof.Machine

namespace Sys2Proof.Tests

/-! ### Well-formedness: a selector that the 8-bit field cannot hold -/

theorem test_illformed_crcCompute : (Instr.crcCompute 256).wellFormed = false := by decide
theorem test_illformed_hdrParse : (Instr.hdrParse 256).wellFormed = false := by decide
theorem test_illformed_fits : (Instr.fits 256).wellFormed = false := by decide
theorem test_illformed_metaBuild : (Instr.metaBuild 256).wellFormed = false := by decide
theorem test_illformed_metaParse : (Instr.metaParse 256).wellFormed = false := by decide
theorem test_wellformed_out_of_range_selector : (Instr.metaBuild 255).wellFormed = true := by decide

/-! ### Decoding: `RSV` ++ `SEL` ++ `OPC`, bit by bit from 30_encoding.md R90 and R92 -/

theorem test_decode_crcInit : decode (0b0000000000000000_00000000_00000001#32) = .ok .crcInit := rfl
theorem test_decode_crcWord : decode (0b0000000000000000_00000000_00000010#32) = .ok .crcWord := rfl
theorem test_decode_crcCompute : decode (0b0000000000000000_00000001_00000011#32) = .ok (.crcCompute 1) := rfl
theorem test_decode_hdrParse : decode (0b0000000000000000_00000001_00010000#32) = .ok (.hdrParse 1) := rfl
theorem test_decode_fits : decode (0b0000000000000000_00000011_00100001#32) = .ok (.fits 3) := rfl
theorem test_decode_metaBuild : decode (0b0000000000000000_00000010_00110000#32) = .ok (.metaBuild 2) := rfl
theorem test_decode_metaParse : decode (0b0000000000000000_11111111_00110001#32) = .ok (.metaParse 255) := rfl
theorem test_decode_merge : decode (0b0000000000000000_00000000_01000000#32) = .ok .merge := rfl
theorem test_decode_reserved : decode (0b0000000000000001_00000000_01000000#32) = .error .reservedNonzero := rfl
theorem test_decode_selector : decode (0b0000000000000000_00000001_01000000#32) = .error .selectorNonzero := rfl
theorem test_decode_unassigned : decode (0b0000000000000000_00000000_00000000#32) = .error .unassignedOpcode := rfl
theorem test_decodeTableWord : decodeTableWord 32 0x00000321 = some (.fits 3) := rfl

/-! ### Fixture T of spec/95_test_vectors.md section 1, "for tests only" -/

/-- Fixture T. -/
def fixtureT : Config :=
  { bootBase := 0x00000000#32
    bankABase := 0x00002000#32
    bankSize := 0x8000#32
    bankBBase := 0x0000A000#32
    dataBase := 0x00012000#32
    dataSize := 0x800#32
    flagA := 0x0A#8
    flagB := 0x0B#8 }

/-- The reset state under fixture T with operands in place. -/
def at_ (arg0 : Word) (in0 in1 : Memory) : State :=
  { State.resetAt fixtureT with arg0 := arg0, in0 := in0, in1 := in1 }

/-- The same with `FATAL = 1`. -/
def fatalAt (arg0 : Word) (in0 in1 : Memory) : State := { at_ arg0 in0 in1 with fatal := true }

/-- Image H1 of section 1. -/
def h1 : List Byte :=
  [0xEF#8, 0xBE#8, 0xAD#8, 0xDE#8, 0x03#8, 0x02#8, 0x01#8, 0x00#8, 0x34#8, 0x12#8, 0x00#8, 0x00#8,
   0x0D#8, 0xF0#8, 0xFE#8, 0xCA#8, 0x05#8, 0x00#8, 0x00#8, 0x00#8] ++ List.replicate 44 0x00#8

/-- Image A1 of section 1: 200 bytes. -/
def a1 : List Byte :=
  [0xEF#8, 0xBE#8, 0xAD#8, 0xDE#8, 0x00#8, 0x00#8, 0x01#8, 0x00#8, 0xC8#8, 0x00#8, 0x00#8, 0x00#8,
   0x00#8, 0x00#8, 0x00#8, 0x00#8, 0x00#8, 0x00#8, 0x00#8, 0x00#8] ++
    (List.range 180).map fun k => BitVec.ofNat 8 (7 * (k + 20) + 3)

/-- Section 5: T is valid; with `BANK_A_BASE = 0x1FFF`, `FLAG_B = 0x0A` or `DATA_SIZE = 19` it is not. With
`BANK_B_BASE = 0xB000` alone the vector says valid; by R171's conjunct on bank B it is not, bank B running on past `DATA_BASE`, and
95_test_vectors.md gives the rule the last word: log entry 6. With `DATA_BASE` moved out of the way it is valid and not
contiguous. -/
theorem test_layout_instances :
    layoutValid fixtureT = true ∧ layoutContiguous fixtureT = true ∧
    layoutValid { fixtureT with bankABase := 0x1FFF#32 } = false ∧
    layoutValid { fixtureT with flagB := 0x0A#8 } = false ∧
    layoutValid { fixtureT with dataSize := 19#32 } = false ∧
    layoutValid { fixtureT with bankBBase := 0xB000#32 } = false ∧
    layoutValid { fixtureT with bankBBase := 0xB000#32, dataBase := 0x13000#32 } = true ∧
    layoutContiguous { fixtureT with bankBBase := 0xB000#32, dataBase := 0x13000#32 } = false := by decide

/-! ### Vectors, at most two per command -/

/-- Program P1 step 1. -/
theorem test_crcInit :
    let t := commandAt fixtureT .crcInit { at_ 0#32 none none with acc := 0x12345678#32 }
    t.acc = 0xFFFFFFFF#32 ∧ statusWord t = 0x00000101#32 := by decide

/-- V2, and program P1 step 3. -/
theorem test_crcWord :
    (commandAt fixtureT .crcWord (at_ 0x00000000#32 none none)).acc = 0xC704DD7B#32 ∧
    (commandAt fixtureT .crcWord (at_ 0x44332211#32 none none)).acc = 0x8695C2DC#32 := by decide +kernel

/-- V11, from `IN1`. -/
theorem test_crcCompute_V11 :
    (commandAt fixtureT (.crcCompute 1)
      (at_ 0#32 none (some [0x11#8, 0x22#8, 0x33#8, 0x44#8, 0x55#8, 0x66#8, 0x77#8, 0x88#8]))).last =
      .crc 0x03#8 0x3712888E#32 := by decide +kernel

/-- Program P4 step 2, and E6: the selector is examined before the operand. -/
theorem test_crcCompute_errors :
    statusWord (commandAt fixtureT (.crcCompute 0) (at_ 0#32 (some (List.replicate 6 0x00#8)) none)) = 0x00000303#32 ∧
    (commandAt fixtureT (.crcCompute 2) (at_ 0#32 none none)).last.errCode = 3#32 := by decide

/-- H1. -/
theorem test_hdrParse_H1 :
    let t := commandAt fixtureT (.hdrParse 0) (at_ 0#32 (some h1) none)
    statusWord t = 0x00001011#32 ∧ resultCells fixtureT t =
      [some 0xDEADBEEF#32, some 0x00010203#32, some 0x00001234#32, some 0xCAFEF00D#32, some 0x00000005#32] := by decide

/-- H2 and H6. -/
theorem test_hdrParse_H2_H6 :
    statusWord (commandAt fixtureT (.hdrParse 0) (at_ 0#32 (some (h1.take 63)) none)) = 0x00001021#32 ∧
    resultCells fixtureT (commandAt fixtureT (.hdrParse 0)
      (at_ 0#32 (some ([0xDE#8, 0xAD#8, 0xBE#8, 0xEF#8] ++ List.replicate 60 0x00#8)) none)) =
      [some 0xEFBEADDE#32, none, none, none, none] := by decide

/-- F3 and F9: the two numbers of `SizeExceeded`; F7. -/
theorem test_fits :
    (commandAt fixtureT (.fits 0) (at_ 8193#32 none none)).last = .error 0x21#8 (.sizeExceeded 8193 8192) ∧
    (commandAt fixtureT (.fits 0) (at_ 0xFFFFFFFF#32 none none)).last.errDeclared = 0xFFFFFFFF#32 ∧
    statusWord (commandAt fixtureT (.fits 3) (at_ 20#32 none none)) = 0x00002101#32 := by decide

/-- Section 5, `FATAL = 1`: `FITS 0` gives `LayoutInvalid`, `FITS 4` still `InvalidArgument`. -/
theorem test_fits_fatal :
    statusWord (commandAt fixtureT (.fits 0) (fatalAt 0#32 none none)) = 0x0000210B#32 ∧
    (commandAt fixtureT (.fits 0) (fatalAt 0#32 none none)).last.errCode = 5#32 ∧
    (commandAt fixtureT (.fits 4) (fatalAt 0#32 none none)).last.errCode = 3#32 := by decide

set_option maxRecDepth 100000 in
/-- M1. -/
theorem test_metaBuild_M1 :
    let t := commandAt fixtureT (.metaBuild 0) (at_ 0#32 (some a1) none)
    t.last.out = some [0x0A#8, 0x00#8, 0x00#8, 0x00#8, 0xC8#8, 0x00#8, 0x00#8, 0x00#8, 0x00#8, 0x00#8, 0x00#8, 0x00#8,
      0x90#8, 0x20#8, 0xF9#8, 0x39#8, 0xFF#8, 0xFF#8, 0xFF#8, 0xFF#8] := by decide +kernel

/-- M8, and M12 with `FATAL = 1` (E8): the selector before the layout. -/
theorem test_metaBuild_errors :
    statusWord (commandAt fixtureT (.metaBuild 0) (at_ 0#32 (some (List.replicate 6 0x00#8)) none)) = 0x00003003#32 ∧
    (commandAt fixtureT (.metaBuild 2) (fatalAt 0#32 none none)).last.errCode = 3#32 := by decide

/-- Q2: the reserved bytes are ignored. -/
theorem test_metaParse_Q2 :
    (commandAt fixtureT (.metaParse 0) (at_ 0#32 (some [0x0A#8, 0xA5#8, 0x5A#8, 0xFF#8, 0xC8#8, 0x00#8, 0x00#8, 0x00#8,
      0x00#8, 0x00#8, 0x00#8, 0x00#8, 0x90#8, 0x20#8, 0xF9#8, 0x39#8, 0xFF#8, 0xFF#8, 0xFF#8, 0xFF#8]) none)).last =
      .metaParsed 0x31#8
        { flag := 0x0A#8, aSize := 200#32, bSize := 0#32, aCrc := 0x39F92090#32, bCrc := 0xFFFFFFFF#32 } := by decide

/-- Q3 and Q5. -/
theorem test_metaParse_errors :
    (commandAt fixtureT (.metaParse 0) (at_ 0#32 (some (0x0C#8 :: List.replicate 19 0x00#8)) none)).last.errCode = 3#32 ∧
    (commandAt fixtureT (.metaParse 0) (at_ 0#32 (some (0x0A#8 :: List.replicate 20 0x00#8)) none)).last.errCode = 1#32 := by
  decide

/-- G2 and G3: the warning and the header state. -/
theorem test_merge_warnings :
    statusWord (commandAt fixtureT .merge (at_ 0#32 (some []) (some [1#8, 2#8, 3#8, 4#8]))) = 0x00004065#32 ∧
    statusWord (commandAt fixtureT .merge (at_ 0#32 (some []) (some (0xEE#8 :: h1.drop 1)))) = 0x00004075#32 := by
  decide +kernel

/-- G8 and E9. -/
theorem test_merge_errors :
    (commandAt fixtureT .merge (at_ 0#32 none (some []))).last.errCode = 6#32 ∧
    (commandAt fixtureT .merge (fatalAt 0#32 none none)).last.errCode = 5#32 := by decide

/-- The version strings of 95_test_vectors.md section 4. -/
theorem test_versionStr :
    versionStr 0x00010203#32 = "v1.2.3" ∧ versionStr 0x000A0B0C#32 = "v10.11.12" ∧ versionStr 0xFF010203#32 = "v1.2.3" := by
  decide

/-- Steps: `withFetchWord` makes the word the very next step's command (E3 is an illegal one). -/
theorem test_step_withFetchWord :
    step (State.reset.withFetchWord 32 0x00000001) = exec .crcInit State.reset ∧
    step (State.reset.withFetchWord 32 0x00010040) =
      .next { State.reset with last := .error 0x40#8 .illegalCommand } := ⟨rfl, rfl⟩

/-! ### Witnesses: a concrete case for the hypotheses of each statement, and for each clause at a boundary of its range -/

/-- A state of the block itself with `FATAL = 0` (the block's own configuration is open, so `FATAL` is chosen here). -/
def ready (arg0 : Word) (in0 in1 : Memory) : State :=
  { State.reset with fatal := false, arg0 := arg0, in0 := in0, in1 := in1 }

/-- The same with one host action pending. -/
def asked (a : HostAction) : State := { ready 0#32 none none with pending := [a] }

theorem witness_DecodeOfEncode : (Instr.fits 255).wellFormed = true := by decide
theorem witness_EncodeOfDecode : decode 0x0000FF21#32 = .ok (.fits 255) := rfl

theorem witness_CrcComputeEffect :
    1 < 2 ∧ selectsBuf 0 .in0 ∧ selectsBuf 1 .in1 ∧ (ready 0#32 none none).buf .in1 = none ∧
    (ready 0#32 (some [1#8, 2#8, 3#8]) none).buf .in0 = some [1#8, 2#8, 3#8] ∧ [1#8, 2#8, 3#8].length % 4 ≠ 0 ∧
    (ready 0#32 (some []) none).buf .in0 = some [] ∧ ([] : List Byte).length % 4 = 0 := by
  simp [selectsBuf, ready, State.buf]

theorem witness_HdrParseEffect :
    selectsBuf 0 .in0 ∧ (ready 0#32 (some h1) none).buf .in0 = some h1 ∧ hdrParse h1 = .present (headerFields h1) ∧
    (ready 0#32 (some (h1.take 63)) none).buf .in0 = some (h1.take 63) ∧ hdrParse (h1.take 63) = .absentShort ∧
    (ready 0#32 (some (List.replicate 64 0#8)) none).buf .in0 = some (List.replicate 64 0#8) ∧
    hdrParse (List.replicate 64 0#8) = .absentMagic 0#32 :=
  ⟨.inl ⟨rfl, rfl⟩, rfl, by decide, rfl, by decide, rfl, by decide⟩

theorem witness_FitsEffect :
    3 < 4 ∧ selectsRegion 3 .data ∧ (fatalAt 0#32 none none).fatal = true ∧
    selectsRegion 0 .boot ∧ (ready 8192#32 none none).fatal = false ∧
    (ready 8192#32 none none).arg0.toNat ≤ regionSize cfg .boot ∧
    regionSize cfg .boot < (ready 8193#32 none none).arg0.toNat ∧
    (ready 0#32 none none).arg0.toNat ≤ regionSize cfg .data := by
  simp [selectsRegion, regionSize, bootSize, ready, fatalAt]

theorem witness_MetaBuildEffect :
    (ready 0#32 none (some [])).fatal = false ∧ bankAccepts cfg (ready 0#32 none (some [])).in0 ∧
    bankAccepts cfg (ready 0#32 none (some [])).in1 ∧ (fatalAt 0#32 none none).fatal = true ∧
    bankAccepts fixtureT (some (List.replicate 4 0#8)) ∧
    (fixtureT.bankSize.toNat < (List.replicate 32769 0#8).length) ∧
    ((List.replicate 32767 0#8).length ≤ fixtureT.bankSize.toNat ∧ (List.replicate 32767 0#8).length % 4 ≠ 0) := by
  refine ⟨rfl, ?_, ?_, rfl, ?_, ?_, ?_, ?_⟩
  · intro b h
    cases h
  · intro b h
    cases h
    exact ⟨Nat.zero_le _, rfl⟩
  · intro b h
    cases h
    decide
  · rw [List.length_replicate]
    decide
  · rw [List.length_replicate]
    decide
  · rw [List.length_replicate]
    decide

/-- Fixture T meets the premises of the worked examples of `META.BUILD` and `META.PARSE`, and of the clauses about `MERGE`
under a valid layout and about contiguous regions. -/
theorem witness_fixture_clauses :
    fixtureT.flagA = 0x0A#8 ∧ 200 ≤ fixtureT.bankSize.toNat ∧ layoutValid fixtureT = true ∧
    layoutContiguous fixtureT = true ∧ (at_ 0#32 (some []) (some [1#8])).fatal = false ∧
    (at_ 0#32 (some []) (some [1#8])).in0 = some [] ∧ (at_ 0#32 (some []) (some [1#8])).in1 = some [1#8] ∧
    ([] : List Byte).length ≤ 8192 ∧ [1#8].length ≤ fixtureT.appSize.toNat := by decide

/-- One of three bytes differs from both flag values, whatever they are. -/
theorem witness_MetaParseEffect_badFlag : ∃ f : Byte, f ≠ cfg.flagA ∧ f ≠ cfg.flagB := by
  have key : ∀ a b : Byte, (0#8 ≠ a ∧ 0#8 ≠ b) ∨ (1#8 ≠ a ∧ 1#8 ≠ b) ∨ (2#8 ≠ a ∧ 2#8 ≠ b) := by
    intro a b
    by_cases h0 : 0#8 ≠ a ∧ 0#8 ≠ b
    · exact .inl h0
    · by_cases h1 : 1#8 ≠ a ∧ 1#8 ≠ b
      · exact .inr (.inl h1)
      · right
        right
        rw [not_and_or, not_ne_iff, not_ne_iff] at h0 h1
        constructor <;> rintro rfl <;> rcases h0 with h | h <;> rcases h1 with h' | h' <;>
          first
            | exact absurd h (by decide)
            | exact absurd h' (by decide)
            | exact absurd (h.trans h'.symm) (by decide)
  rcases key cfg.flagA cfg.flagB with h | h | h
  exacts [⟨_, h⟩, ⟨_, h⟩, ⟨_, h⟩]

theorem witness_MetaParseEffect :
    selectsBuf 1 .in1 ∧ (cfg.flagB :: List.replicate 19 0#8).length = 20 ∧
    byteAt (cfg.flagB :: List.replicate 19 0#8) 0 = cfg.flagB ∧ (List.replicate 21 0#8).length ≠ 20 :=
  ⟨.inr ⟨rfl, rfl⟩, rfl, rfl, by decide⟩

theorem witness_MergeEffect :
    (fatalAt 0#32 none none).fatal = true ∧ (ready 0#32 none (some [])).in0 = none ∧
    (ready 0#32 (some []) none).in1 = none ∧ 8192 < (List.replicate 8193 0#8).length ∧
    (List.replicate 8192 0#8).length ≤ 8192 ∧
    cfg.appSize.toNat < (List.replicate (cfg.appSize.toNat + 1) 0#8).length ∧
    ([] : List Byte).length ≤ cfg.appSize.toNat ∧ (hdrParse []).state = .short ∧
    (hdrParse h1).state = .present ∧ (hdrParse (List.replicate 64 0#8)).state = .badMagic := by
  refine ⟨rfl, rfl, rfl, ?_, ?_, ?_, Nat.zero_le _, rfl, by decide, by decide⟩ <;> rw [List.length_replicate] <;> omega

theorem witness_StepRunsDecodedCommand :
    (asked (.writeReg 4 0 0x40#32)).pending = [.writeReg 4 0 0x40#32] ∧ decode 0x40#32 = .ok .merge := ⟨rfl, rfl⟩

theorem witness_IllegalWordLatchesIllegalCommand :
    (asked (.writeReg 4 0 0x140#32)).pending = [.writeReg 4 0 0x140#32] ∧ decode 0x140#32 = .error .selectorNonzero :=
  ⟨rfl, rfl⟩

theorem witness_CommandFrame : ∃ t, exec .merge State.reset = .next t := ⟨_, rfl⟩

theorem witness_ErrorEntryWritesOnlyTheLatch :
    exec .merge (ready 0#32 none none) =
      .next { ready 0#32 none none with last := .error 0x40#8 .operandAbsent } := rfl

theorem witness_ErrorEntryWritesOnlyTheLatch_numbers :
    exec (.fits 0) (ready 8193#32 none none) =
      .next { ready 8193#32 none none with last := .error 0x21#8 (.sizeExceeded 8193 8192) } := rfl

theorem witness_FatalGatesOnlyLayoutCommands :
    (fatalAt 0#32 none none).fatal = true ∧ (∃ t, exec (.hdrParse 0) State.reset = .next t) ∧
    State.reset.pending.head? ≠ some .reset ∧ step State.reset = .next State.reset :=
  ⟨rfl, ⟨_, rfl⟩, by simp [State.reset, State.resetAt], rfl⟩

theorem witness_OutcomeIndependentOfLatch :
    let s₁ := ready 7#32 none none
    let s₂ := { s₁ with last := .crc 0x03#8 5#32 }
    s₁.fatal = s₂.fatal ∧ s₁.arg0 = s₂.arg0 ∧ s₁.in0 = s₂.in0 ∧ s₁.in1 = s₂.in1 ∧ s₁.acc = s₂.acc ∧
    (∃ t, exec .crcWord s₁ = .next t) ∧ ∃ t, exec .crcWord s₂ = .next t :=
  ⟨rfl, rfl, rfl, rfl, rfl, ⟨_, rfl⟩, ⟨_, rfl⟩⟩

theorem witness_CommandsExceptCrcWordAreIdempotent :
    Instr.crcInit ≠ .crcWord ∧ ∃ t, exec .crcInit State.reset = .next t := ⟨by decide, ⟨_, rfl⟩⟩

theorem witness_ChecksumOfAppendedWord : crcCompute [] = .ok 0xFFFFFFFF#32 := rfl

theorem witness_StreamingEqualsBuffered :
    (∃ v, crcCompute [1#8, 2#8, 3#8, 4#8] = .ok v) ∧ Instr.merge ≠ .crcInit ∧ Instr.merge ≠ .crcWord ∧
    ∃ t, exec .merge State.reset = .next t :=
  ⟨⟨_, rfl⟩, by decide, by decide, ⟨_, rfl⟩⟩

theorem witness_HeaderParseOutcomes :
    (h1.take 63).length < 64 ∧ 64 ≤ h1.length ∧ wordAt h1 0 = 0xDEADBEEF#32 ∧
    64 ≤ (List.replicate 64 0#8).length ∧ wordAt (List.replicate 64 0#8) 0 ≠ 0xDEADBEEF#32 := by decide

theorem witness_HeaderParseIgnoresBytesFrom20 :
    64 ≤ h1.length ∧ 64 ≤ (h1.take 20 ++ List.replicate 44 0xFF#8).length ∧
    h1.take 20 = (h1.take 20 ++ List.replicate 44 0xFF#8).take 20 := by decide

theorem witness_HeaderVersionString : (List.replicate 56 0#8).length = 56 := by decide

theorem witness_layout_premise : layoutValid fixtureT = true ∧ fits fixtureT 8192 .boot = .ok () := by
  exact ⟨by decide, rfl⟩

theorem witness_ValidLayoutSeparatesRegions :
    layoutValid fixtureT = true ∧ inRegion fixtureT .boot 0x1FFF = true ∧ inRegion fixtureT .bankA 0x2000 = true := by
  decide

theorem witness_FitsBoundaries : regionSize fixtureT .data < 2 ^ 32 - 1 := by decide

theorem witness_MergedImageBytes :
    layoutValid fixtureT = true ∧ ∃ m, merge fixtureT [1#8, 2#8] [3#8] = .ok m :=
  ⟨by decide, _, merge_eq_ok.2 ⟨by decide, by decide, rfl⟩⟩

theorem witness_MergeRejectsOversizeImages :
    8192 < (List.replicate 8193 0#8).length ∧ (List.replicate 8192 0#8).length ≤ 8192 ∧
    fixtureT.bankSize.toNat < (List.replicate 32769 0#8).length ∧
    (List.replicate 32768 0#8).length ≤ fixtureT.bankSize.toNat := by
  refine ⟨?_, ?_, ?_, ?_⟩ <;> rw [List.length_replicate] <;> decide

theorem witness_MergeEndToEndScenario :
    layoutValid fixtureT = true ∧ fixtureT.appOffset = 0x2000 ∧ 200 ≤ fixtureT.bankSize.toNat ∧
    (List.replicate 100 0#8).length = 100 ∧ a1.length = 200 ∧
    a1.take 8 = [0xEF#8, 0xBE#8, 0xAD#8, 0xDE#8, 0x00#8, 0x00#8, 0x01#8, 0x00#8] :=
  ⟨by decide, by decide, by decide, by rw [List.length_replicate], by simp [a1], rfl⟩

theorem witness_MetaRecordRoundTrip : ∃ r, metaBuild fixtureT 0 none (some []) = .ok r := ⟨_, rfl⟩

theorem witness_ReservedRecordBytes :
    MetaRecord.valid fixtureT
      { flag := 0x0B#8, aSize := 0#32, bSize := 0#32, aCrc := 0#32, bCrc := 0#32 } = true ∧
    ∃ r, metaParse fixtureT ([0x0A#8, 1#8, 2#8, 3#8] ++ List.replicate 16 0#8) = .ok r :=
  ⟨by decide, _, rfl⟩

theorem witness_RecordCoversActualImages : ∃ r, metaBuild fixtureT 1 (some (List.replicate 4 0#8)) none = .ok r := ⟨_, rfl⟩

theorem witness_AbsentBankAmbiguity :
    [1#8, 2#8, 3#8, 4#8] ≠ [] ∧ ∃ e, bankEntry fixtureT (some [1#8, 2#8, 3#8, 4#8]) .bankA = .ok e := ⟨by decide, _, rfl⟩

theorem witness_AbsentBanksRecord :
    (ready 0#32 none none).fatal = false ∧ (ready 0#32 none none).in0 = none ∧ (ready 0#32 none none).in1 = none :=
  ⟨rfl, rfl, rfl⟩

theorem witness_InvariantKeptByEveryStep : Inv cfg State.reset ∧ step State.reset = .next State.reset :=
  ⟨⟨rfl, rfl, rfl, trivial⟩, rfl⟩

theorem witness_ErrorRegistersView :
    { State.reset with last := .error 0x21#8 (.sizeExceeded 9 8) }.last = .error 0x21#8 (.sizeExceeded 9 8) ∧
    { State.reset with last := .error 0x40#8 .operandAbsent }.last = .error 0x40#8 .operandAbsent ∧
    (∀ d l, CmdError.operandAbsent ≠ .sizeExceeded d l) ∧ ∀ op e, State.reset.last ≠ .error op e :=
  ⟨rfl, rfl, by intros; simp, by intros; simp [State.reset, State.resetAt]⟩

theorem witness_RegisterMap : Reg.ofOffset 0x60 = some .cfgAppOffset := rfl

theorem witness_HostReadDelivers :
    (asked (.readReg 2 0x14)).pending = [.readReg 2 0x14] ∧ (2 ≠ 4 ∨ 0x14 % 4 ≠ 0) ∧
    (0x64 % 4 = 0 ∧ Reg.ofOffset 0x64 = none) ∧
    (Reg.ofOffset 0x1C = some .res0 ∧ readReg cfg (asked (.readReg 4 0x1C)) .res0 = none) ∧
    (Reg.ofOffset 0x18 = some .acc ∧ readReg cfg (asked (.readReg 4 0x18)) .acc = some 0xFFFFFFFF#32) :=
  ⟨rfl, .inl (by decide), ⟨rfl, rfl⟩, ⟨rfl, rfl⟩, ⟨rfl, rfl⟩⟩

theorem witness_HostWriteOutsideCmd_reads :
    (asked (.readReg 4 0)).pending = [.readReg 4 0] ∧ (asked (.readReg 4 0x64)).pending = [.readReg 4 0x64] ∧
    0x64 % 4 = 0 ∧ Reg.ofOffset 0x64 = none := ⟨rfl, rfl, rfl, rfl⟩

theorem witness_HostWriteOutsideCmd :
    (asked (.writeReg 4 0x14 7#32)).pending = [.writeReg 4 0x14 7#32] ∧ 0x15 % 4 ≠ 0 ∧ Reg.ofOffset 0x64 = none ∧
    Reg.ofOffset 0x18 = some .acc ∧ Reg.acc ≠ .cmd ∧ Reg.acc ≠ .arg0 :=
  ⟨rfl, by decide, rfl, rfl, by decide, by decide⟩

theorem witness_HostLoadsAndClearsBuffers :
    ([] : List Byte).length ≤ 2 ^ 32 - 1 ∧ (asked (.load .in1 [])).pending = [.load .in1 []] ∧
    (asked (.clear .in0)).pending = [.clear .in0] := ⟨Nat.zero_le _, rfl, rfl⟩

theorem witness_HostReadOutDelivers :
    let s : State := { asked (.readOut 1 2) with last := .merged 0x40#8 [1#8, 2#8, 3#8] .short }
    s.pending = [.readOut 1 2] ∧ s.last.out = some [1#8, 2#8, 3#8] ∧ 1 + 2 ≤ [1#8, 2#8, 3#8].length ∧
    [1#8, 2#8, 3#8].length < 2 + 2 ∧ (asked (.readOut 0 0)).last.out = none :=
  ⟨rfl, rfl, by decide, by decide, rfl⟩

theorem witness_ResetActionRestoresResetState : (asked .reset).pending = [.reset] := rfl

theorem witness_StepStopsOnlyOnUndefinedActions :
    (HostAction.readReg 4 0x1C).defined cfg (asked (.readReg 4 0x1C)) = false ∧
    (HostAction.readReg 4 0x60).defined cfg (asked (.readReg 4 0x60)) = true := ⟨rfl, rfl⟩

theorem witness_ResultsLiveUntilNextCommand :
    (HostAction.writeReg 4 0x14 7#32).replacesLast = false ∧ ∃ t, step (asked (.writeReg 4 0x14 7#32)) = .next t :=
  ⟨by decide, _, rfl⟩

theorem witness_LengthRegistersAreExact :
    Inv fixtureT { State.resetAt fixtureT with last := .error 0x21#8 (.sizeExceeded 8193 8192) } :=
  ⟨rfl, rfl, rfl, ⟨.inl rfl, by decide, by decide, by decide⟩⟩

end Sys2Proof.Tests
end

section
/-! PROOFS. The rules of the shared operations that the statements need: the fields after a command's end, checks in
sequence, the operand checks, what each unit answers, and the outcome of each command. -/

namespace Sys2Proof.Machine

/-! ### The end of a command, field by field -/

section
variable (s : State) (op : Byte) (r : Except CmdError Last)

@[simp] theorem State.finish_fatal : (s.finish op r).fatal = s.fatal := by cases r <;> rfl
@[simp] theorem State.finish_acc : (s.finish op r).acc = s.acc := by cases r <;> rfl
@[simp] theorem State.finish_arg0 : (s.finish op r).arg0 = s.arg0 := by cases r <;> rfl
@[simp] theorem State.finish_in0 : (s.finish op r).in0 = s.in0 := by cases r <;> rfl
@[simp] theorem State.finish_in1 : (s.finish op r).in1 = s.in1 := by cases r <;> rfl
@[simp] theorem State.finish_pending : (s.finish op r).pending = s.pending := by cases r <;> rfl
@[simp] theorem State.finish_replies : (s.finish op r).replies = s.replies := by cases r <;> rfl

/-- What a command latches depends on its opcode and outcome alone. -/
theorem State.finish_last_congr (s₁ s₂ : State) : (s₁.finish op r).last = (s₂.finish op r).last := by
  cases r <;> rfl

end

/-! ### Checks in sequence -/

section
variable {ε α β : Type}

theorem pure_eq_ok {a b : α} : (pure a : Except ε α) = .ok b ↔ b = a := by
  simp [pure, Except.pure, eq_comm]

theorem pure_eq_error {a : α} {e : ε} : (pure a : Except ε α) = .error e ↔ False := by
  simp [pure, Except.pure]

/-- A sequence that begins with a check without a value. -/
theorem check_bind_eq_ok {x : Except ε Unit} {f : Unit → Except ε β} {b : β} :
    (x >>= f) = .ok b ↔ x = .ok () ∧ f () = .ok b := by
  simp only [bind_eq_ok, Unique.exists_iff, PUnit.default_eq_unit]

theorem check_bind_eq_error {x : Except ε Unit} {f : Unit → Except ε β} {e : ε} :
    (x >>= f) = .error e ↔ x = .error e ∨ (x = .ok () ∧ f () = .error e) := by
  simp only [bind_eq_error, Unique.exists_iff, PUnit.default_eq_unit]

end

/-! ### The operand checks (30_encoding.md R93; 60_exceptions.md R246) -/

theorem bufOperand_eq_ok {sel : Nat} {i : Buf} : bufOperand sel = .ok i ↔ selectsBuf sel i := by
  by_cases h0 : sel = 0
  · simp [bufOperand, selectsBuf, h0, eq_comm]
  · by_cases h1 : sel = 1 <;> simp [bufOperand, selectsBuf, h0, h1, eq_comm]

theorem bufOperand_eq_error {sel : Nat} {e : CmdError} :
    bufOperand sel = .error e ↔ 1 < sel ∧ e = .invalidArgument := by
  by_cases h0 : sel = 0
  · simp [bufOperand, h0]
  · by_cases h1 : sel = 1
    · simp [bufOperand, h1]
    · have : 1 < sel := by omega
      simp [bufOperand, h0, h1, this, eq_comm]

theorem regionOperand_eq_ok {sel : Nat} {r : Region} : regionOperand sel = .ok r ↔ selectsRegion sel r := by
  by_cases h0 : sel = 0
  · simp [regionOperand, selectsRegion, h0, eq_comm]
  · by_cases h1 : sel = 1
    · simp [regionOperand, selectsRegion, h1, eq_comm]
    · by_cases h2 : sel = 2
      · simp [regionOperand, selectsRegion, h2, eq_comm]
      · by_cases h3 : sel = 3 <;> simp [regionOperand, selectsRegion, h0, h1, h2, h3, eq_comm]

theorem regionOperand_eq_error {sel : Nat} {e : CmdError} :
    regionOperand sel = .error e ↔ 3 < sel ∧ e = .invalidArgument := by
  by_cases h : 3 < sel
  · have h0 : sel ≠ 0 ∧ sel ≠ 1 ∧ sel ≠ 2 ∧ sel ≠ 3 := by omega
    simp [regionOperand, h0, h, eq_comm]
  · have : sel = 0 ∨ sel = 1 ∨ sel = 2 ∨ sel = 3 := by omega
    rcases this with rfl | rfl | rfl | rfl <;> simp [regionOperand]

theorem bufferOperand_eq_ok {s : State} {sel : Nat} {b : List Byte} :
    bufferOperand s sel = .ok b ↔ ∃ i, selectsBuf sel i ∧ s.buf i = some b := by
  simp [bufferOperand, bind_eq_ok, bufOperand_eq_ok, requirePresent_eq_ok]

theorem bufferOperand_eq_error {s : State} {sel : Nat} {e : CmdError} :
    bufferOperand s sel = .error e ↔
      (1 < sel ∧ e = .invalidArgument) ∨ ∃ i, selectsBuf sel i ∧ s.buf i = none ∧ e = .operandAbsent := by
  simp [bufferOperand, bind_eq_error, bufOperand_eq_ok, bufOperand_eq_error, requirePresent_eq_error]

/-- The buffer operand is a function of the two input buffers. -/
theorem bufferOperand_congr {s₁ s₂ : State} (h0 : s₁.in0 = s₂.in0) (h1 : s₁.in1 = s₂.in1) (sel : Nat) :
    bufferOperand s₁ sel = bufferOperand s₂ sel := by
  have hbuf : s₁.buf = s₂.buf := funext fun i => by cases i; exacts [h0, h1]
  simp only [bufferOperand, hbuf]

theorem requireLayout_congr {s₁ s₂ : State} (hf : s₁.fatal = s₂.fatal) : requireLayout s₁ = requireLayout s₂ := by
  simp only [requireLayout, hf]

/-! ### What the units answer -/

/-- What a parse reports agrees with the magic it read (41_header.md R152). -/
theorem hdrParse_consistent (img : List Byte) : (hdrParse img).consistent := by
  unfold hdrParse
  split
  · trivial
  · split
    · assumption
    · exact not_not.1 ‹_›

/-- Under a valid layout the bootloader region ends at or before the application (42_layout.md R175). -/
theorem bootSize_le_appOffset {c : Config} (hv : layoutValid c = true) : bootSize ≤ c.appOffset := by
  obtain ⟨-, hboot, -⟩ := (layoutValid_iff c).1 hv
  exact Nat.le_sub_of_add_le' hboot

/-- Without a premise on the layout the application begins after the bootloader, `app_offset` or later. -/
theorem merge_length {c : Config} {boot app m : List Byte} (h : merge c boot app = .ok m) :
    m.length = max boot.length c.appOffset + app.length := by
  obtain ⟨-, -, rfl⟩ := merge_eq_ok.1 h
  simp only [List.length_append, List.length_replicate]
  omega

/-- Under a valid layout the bootloader cannot reach `app_offset`, so the application begins there (44_merge.md R227). -/
theorem merge_length_of_valid {c : Config} {boot app m : List Byte} (hv : layoutValid c = true)
    (h : merge c boot app = .ok m) : m.length = c.appOffset + app.length := by
  obtain ⟨hboot, -, -⟩ := merge_eq_ok.1 h
  rw [merge_length h, max_eq_right (hboot.trans (bootSize_le_appOffset hv))]

/-- The size in a bank's entry is exact, within the bank and a multiple of 4 (43_metadata.md R191, R194). -/
theorem bankEntry_size {c : Config} {m : Memory} {r : Region} {e : BankEntry} (hr : regionSize c r < 2 ^ 32)
    (h : bankEntry c m r = .ok e) :
    e.size.toNat = Memory.len m ∧ e.size.toNat % 4 = 0 ∧ e.size.toNat ≤ regionSize c r := by
  cases m with
  | none =>
    cases h
    simp [Memory.len]
  | some b =>
    obtain ⟨hfits, hmod, rfl⟩ := bankEntry_some_eq_ok.1 h
    have hexact : (BitVec.ofNat 32 b.length).toNat = b.length := Nat.mod_eq_of_lt (hfits.trans_lt hr)
    simp only [hexact]
    exact ⟨rfl, hmod, hfits⟩

theorem metaBuild_eq_error {c : Config} {sel : Nat} {a b : Memory} {e : CmdError} :
    metaBuild c sel a b = .error e ↔
      (1 < sel ∧ e = .invalidArgument) ∨
      (sel ≤ 1 ∧ (bankEntry c a .bankA = .error e ∨
        ∃ ea, bankEntry c a .bankA = .ok ea ∧ bankEntry c b .bankB = .error e)) := by
  simp only [metaBuild, check_bind_eq_error, bind_eq_error (α := BankEntry), bankOperand_eq_ok, bankOperand_eq_error,
    pure_eq_error, and_false, exists_false, or_false]

/-- A record that can be built has a legal flag and the sizes of its images (43_metadata.md R190, R191, R194). -/
theorem metaBuild_buildable {c : Config} {sel : Nat} {a b : Memory} {r : MetaRecord}
    (h : metaBuild c sel a b = .ok r) : r.buildable c := by
  obtain ⟨-, ea, eb, ha, hb, rfl⟩ := metaBuild_eq_ok.1 h
  obtain ⟨-, hmodA, hleA⟩ := bankEntry_size (r := .bankA) c.bankSize.isLt ha
  obtain ⟨-, hmodB, hleB⟩ := bankEntry_size (r := .bankB) c.bankSize.isLt hb
  refine ⟨?_, hmodA, hmodB, hleA, hleB⟩
  by_cases hsel : sel = 0 <;> simp [MetaRecord.valid, hsel]

theorem metaParse_eq_ok {c : Config} {b : List Byte} {r : MetaRecord} : metaParse c b = .ok r ↔
    b.length = metaSize ∧ (byteAt b 0 = c.flagA ∨ byteAt b 0 = c.flagB) ∧
      r = { flag := byteAt b 0, aSize := wordAt b 4, bSize := wordAt b 8, aCrc := wordAt b 12, bCrc := wordAt b 16 } := by
  by_cases hlen : b.length = metaSize
  · by_cases hflag : byteAt b 0 = c.flagA ∨ byteAt b 0 = c.flagB
    · simp [metaParse, hlen, hflag, ← not_or, eq_comm (a := r)]
    · simp [metaParse, hlen, hflag, ← not_or]
  · simp [metaParse, hlen]

theorem metaParse_eq_error {c : Config} {b : List Byte} {e : CmdError} : metaParse c b = .error e ↔
    (b.length ≠ metaSize ∧ e = .invalidInputLength) ∨
    (b.length = metaSize ∧ ¬(byteAt b 0 = c.flagA ∨ byteAt b 0 = c.flagB) ∧ e = .invalidArgument) := by
  by_cases hlen : b.length = metaSize
  · by_cases hflag : byteAt b 0 = c.flagA ∨ byteAt b 0 = c.flagB
    · simp [metaParse, hlen, hflag, ← not_or]
    · simp [metaParse, hlen, hflag, ← not_or, eq_comm (a := e)]
  · simp [metaParse, hlen, eq_comm (a := e)]

/-! ### The outcome of each command with checks, by its checks in order -/

theorem crcComputeOutcome_eq_ok {sel : Nat} {s : State} {l : Last} : crcComputeOutcome sel s = .ok l ↔
    ∃ b, bufferOperand s sel = .ok b ∧ ∃ v, crcCompute b = .ok v ∧ l = .crc opcCrcCompute v := by
  simp only [crcComputeOutcome, bind_eq_ok, pure_eq_ok]

theorem crcComputeOutcome_eq_error {sel : Nat} {s : State} {e : CmdError} : crcComputeOutcome sel s = .error e ↔
    bufferOperand s sel = .error e ∨ ∃ b, bufferOperand s sel = .ok b ∧ crcCompute b = .error e := by
  simp only [crcComputeOutcome, bind_eq_error, pure_eq_error, and_false, exists_false, or_false]

theorem hdrParseOutcome_eq_ok {sel : Nat} {s : State} {l : Last} : hdrParseOutcome sel s = .ok l ↔
    ∃ b, bufferOperand s sel = .ok b ∧ l = .hdr opcHdrParse (hdrParse b) := by
  simp only [hdrParseOutcome, bind_eq_ok, pure_eq_ok]

theorem hdrParseOutcome_eq_error {sel : Nat} {s : State} {e : CmdError} :
    hdrParseOutcome sel s = .error e ↔ bufferOperand s sel = .error e := by
  simp only [hdrParseOutcome, bind_eq_error, pure_eq_error, and_false, exists_false, or_false]

theorem fitsOutcome_eq_ok {c : Config} {sel : Nat} {s : State} {l : Last} : fitsOutcome c sel s = .ok l ↔
    ∃ r, regionOperand sel = .ok r ∧ s.fatal = false ∧ s.arg0.toNat ≤ regionSize c r ∧ l = .done opcFits := by
  simp only [fitsOutcome, bind_eq_ok (x := regionOperand sel), check_bind_eq_ok, requireLayout_eq_ok, fits_eq_ok,
    pure_eq_ok]

theorem fitsOutcome_eq_error {c : Config} {sel : Nat} {s : State} {e : CmdError} : fitsOutcome c sel s = .error e ↔
    regionOperand sel = .error e ∨ ∃ r, regionOperand sel = .ok r ∧
      ((s.fatal = true ∧ e = .layoutInvalid) ∨
        (s.fatal = false ∧ regionSize c r < s.arg0.toNat ∧ e = .sizeExceeded s.arg0.toNat (regionSize c r))) := by
  simp only [fitsOutcome, bind_eq_error (x := regionOperand sel), check_bind_eq_error, requireLayout_eq_ok,
    requireLayout_eq_error, fits_eq_error, pure_eq_error, and_false, or_false]

theorem metaBuildOutcome_eq_ok {c : Config} {sel : Nat} {s : State} {l : Last} : metaBuildOutcome c sel s = .ok l ↔
    sel ≤ 1 ∧ s.fatal = false ∧
      ∃ r, metaBuild c sel s.in0 s.in1 = .ok r ∧ l = .built opcMetaBuild r (metaSerialize r) := by
  simp only [metaBuildOutcome, check_bind_eq_ok, bind_eq_ok (x := metaBuild _ _ _ _), bankOperand_eq_ok,
    requireLayout_eq_ok, pure_eq_ok]

theorem metaBuildOutcome_eq_error {c : Config} {sel : Nat} {s : State} {e : CmdError} :
    metaBuildOutcome c sel s = .error e ↔
      (1 < sel ∧ e = .invalidArgument) ∨
      (sel ≤ 1 ∧ ((s.fatal = true ∧ e = .layoutInvalid) ∨
        (s.fatal = false ∧ metaBuild c sel s.in0 s.in1 = .error e))) := by
  simp only [metaBuildOutcome, check_bind_eq_error, bind_eq_error (x := metaBuild _ _ _ _), bankOperand_eq_ok,
    bankOperand_eq_error, requireLayout_eq_ok, requireLayout_eq_error, pure_eq_error, and_false, exists_false, or_false]

theorem metaParseOutcome_eq_ok {c : Config} {sel : Nat} {s : State} {l : Last} : metaParseOutcome c sel s = .ok l ↔
    ∃ b, bufferOperand s sel = .ok b ∧ ∃ r, metaParse c b = .ok r ∧ l = .metaParsed opcMetaParse r := by
  simp only [metaParseOutcome, bind_eq_ok, pure_eq_ok]

theorem metaParseOutcome_eq_error {c : Config} {sel : Nat} {s : State} {e : CmdError} :
    metaParseOutcome c sel s = .error e ↔
      bufferOperand s sel = .error e ∨ ∃ b, bufferOperand s sel = .ok b ∧ metaParse c b = .error e := by
  simp only [metaParseOutcome, bind_eq_error, pure_eq_error, and_false, exists_false, or_false]

theorem mergeOutcome_eq_ok {c : Config} {s : State} {l : Last} : mergeOutcome c s = .ok l ↔
    s.fatal = false ∧ ∃ boot, s.in0 = some boot ∧ ∃ app, s.in1 = some app ∧
      ∃ m, merge c boot app = .ok m ∧ l = .merged opcMerge m (hdrParse app).state := by
  simp only [mergeOutcome, check_bind_eq_ok, bind_eq_ok (α := List Byte), requireLayout_eq_ok, requirePresent_eq_ok,
    pure_eq_ok]

theorem mergeOutcome_eq_error {c : Config} {s : State} {e : CmdError} : mergeOutcome c s = .error e ↔
    (s.fatal = true ∧ e = .layoutInvalid) ∨
    (s.fatal = false ∧ ((s.in0 = none ∧ e = .operandAbsent) ∨
      ∃ boot, s.in0 = some boot ∧ ((s.in1 = none ∧ e = .operandAbsent) ∨
        ∃ app, s.in1 = some app ∧ merge c boot app = .error e))) := by
  simp only [mergeOutcome, check_bind_eq_error, bind_eq_error (α := List Byte), requireLayout_eq_ok,
    requireLayout_eq_error, requirePresent_eq_ok, requirePresent_eq_error, pure_eq_error, and_false, exists_false,
    or_false]

end Sys2Proof.Machine
end

section
/-! PROOFS. Every command in one form: its outcome latched, its accumulator written (10_state.md R25, R30). From it the
frame of the commands, their completion and their independence of `LAST`. -/

namespace Sys2Proof.Machine

/-- The checks and the result of a command: its own `...Outcome`, or `Done` for the two streaming commands. -/
def commandOutcome (c : Config) : Instr → State → Except CmdError Last
  | .crcInit, _ => .ok (.done opcCrcInit)
  | .crcWord, _ => .ok (.done opcCrcWord)
  | .crcCompute sel, s => crcComputeOutcome sel s
  | .hdrParse sel, s => hdrParseOutcome sel s
  | .fits sel, s => fitsOutcome c sel s
  | .metaBuild sel, s => metaBuildOutcome c sel s
  | .metaParse sel, s => metaParseOutcome c sel s
  | .merge, s => mergeOutcome c s

/-- `ACC` after a command (10_state.md R25). -/
def commandAcc : Instr → State → Word
  | .crcInit, _ => crcInitial
  | .crcWord, s => crcWord s.acc s.arg0
  | _, s => s.acc

/-- A command writes `ACC`, latches its outcome under its own opcode, and does nothing else. -/
theorem commandAt_eq_finish (c : Config) (i : Instr) (s : State) :
    commandAt c i s = (s.setAcc (commandAcc i s)).finish i.opcode (commandOutcome c i s) := by
  cases i <;> rfl

theorem commandAcc_of_not_streaming {i : Instr} (s : State) (hinit : i ≠ .crcInit) (hword : i ≠ .crcWord) :
    commandAcc i s = s.acc := by
  cases i with
  | crcInit => exact absurd rfl hinit
  | crcWord => exact absurd rfl hword
  | _ => rfl

section
variable (c : Config) (i : Instr) (s : State)

@[simp] theorem commandAt_fatal : (commandAt c i s).fatal = s.fatal := by simp [commandAt_eq_finish]
@[simp] theorem commandAt_acc : (commandAt c i s).acc = commandAcc i s := by simp [commandAt_eq_finish]
@[simp] theorem commandAt_arg0 : (commandAt c i s).arg0 = s.arg0 := by simp [commandAt_eq_finish]
@[simp] theorem commandAt_in0 : (commandAt c i s).in0 = s.in0 := by simp [commandAt_eq_finish]
@[simp] theorem commandAt_in1 : (commandAt c i s).in1 = s.in1 := by simp [commandAt_eq_finish]
@[simp] theorem commandAt_pending : (commandAt c i s).pending = s.pending := by simp [commandAt_eq_finish]
@[simp] theorem commandAt_replies : (commandAt c i s).replies = s.replies := by simp [commandAt_eq_finish]

@[simp] theorem commandAt_buf (j : Buf) : (commandAt c i s).buf j = s.buf j := by
  cases j
  · exact commandAt_in0 c i s
  · exact commandAt_in1 c i s

/-- What a command latches: its result, or its error under its own opcode. -/
theorem commandAt_last :
    (∃ l, commandOutcome c i s = .ok l ∧ (commandAt c i s).last = l) ∨
    (∃ e, commandOutcome c i s = .error e ∧ (commandAt c i s).last = .error i.opcode e) := by
  rw [commandAt_eq_finish]
  exact State.finish_last _ _ _

end

theorem Instr.opcode_ne_zero (i : Instr) : i.opcode ≠ 0#8 := by
  cases i <;> simp only [Instr.opcode] <;> decide

/-- A result carries the opcode of the command that computed it (10_state.md R30). -/
theorem commandOutcome_opField {c : Config} {i : Instr} {s : State} {l : Last} (h : commandOutcome c i s = .ok l) :
    l.opField = i.opcode := by
  cases i with
  | crcInit => cases h; rfl
  | crcWord => cases h; rfl
  | crcCompute sel => obtain ⟨_, _, _, _, rfl⟩ := crcComputeOutcome_eq_ok.1 h; rfl
  | hdrParse sel => obtain ⟨_, _, rfl⟩ := hdrParseOutcome_eq_ok.1 h; rfl
  | fits sel => obtain ⟨_, _, _, _, rfl⟩ := fitsOutcome_eq_ok.1 h; rfl
  | metaBuild sel => obtain ⟨_, _, _, _, rfl⟩ := metaBuildOutcome_eq_ok.1 h; rfl
  | metaParse sel => obtain ⟨_, _, _, _, rfl⟩ := metaParseOutcome_eq_ok.1 h; rfl
  | merge => obtain ⟨_, _, _, _, _, _, _, rfl⟩ := mergeOutcome_eq_ok.1 h; rfl

/-- A command leaves its own opcode in the latch, with its result or with its error. -/
theorem commandAt_opField (c : Config) (i : Instr) (s : State) : (commandAt c i s).last.opField = i.opcode := by
  rcases commandAt_last c i s with ⟨l, hok, hlast⟩ | ⟨e, -, hlast⟩
  · rw [hlast, commandOutcome_opField hok]
  · rw [hlast]
    rfl

/-- The outcome is a function of `FATAL`, `ARG0` and the input buffers: no check reads `LAST` or `ACC` (10_state.md R22). -/
theorem commandOutcome_congr (c : Config) (i : Instr) {s₁ s₂ : State} (hf : s₁.fatal = s₂.fatal)
    (ha : s₁.arg0 = s₂.arg0) (h0 : s₁.in0 = s₂.in0) (h1 : s₁.in1 = s₂.in1) :
    commandOutcome c i s₁ = commandOutcome c i s₂ := by
  have hbuf := bufferOperand_congr h0 h1
  have hlayout := requireLayout_congr hf
  cases i with
  | crcInit => rfl
  | crcWord => rfl
  | crcCompute sel => simp only [commandOutcome, crcComputeOutcome, hbuf]
  | hdrParse sel => simp only [commandOutcome, hdrParseOutcome, hbuf]
  | fits sel => simp only [commandOutcome, fitsOutcome, hlayout, ha]
  | metaBuild sel => simp only [commandOutcome, metaBuildOutcome, hlayout, h0, h1]
  | metaParse sel => simp only [commandOutcome, metaParseOutcome, hbuf]
  | merge => simp only [commandOutcome, mergeOutcome, hlayout, h0, h1]

theorem commandAt_last_congr (c : Config) (i : Instr) {s₁ s₂ : State} (hf : s₁.fatal = s₂.fatal)
    (ha : s₁.arg0 = s₂.arg0) (h0 : s₁.in0 = s₂.in0) (h1 : s₁.in1 = s₂.in1) :
    (commandAt c i s₁).last = (commandAt c i s₂).last := by
  rw [commandAt_eq_finish, commandAt_eq_finish, commandOutcome_congr c i hf ha h0 h1]
  exact State.finish_last_congr _ _ _ _

/-- Settles O15: a command is its outcome latched and `ACC` written, and only the streaming commands write a new `ACC`. -/
theorem commandFrame : Obligations.CommandFrame := by
  intro i s t h
  obtain rfl := exec_next h
  refine ⟨commandAt_fatal .., commandAt_arg0 .., commandAt_in0 .., commandAt_in1 .., ?_, commandAt_pending ..,
    commandAt_replies .., ?_⟩
  · intro j k
    rw [commandAt_buf]
  · intro hinit hword
    rw [commandAt_acc, commandAcc_of_not_streaming s hinit hword]

/-- Settles O16: the latch carries the command's opcode, which is not the 0 that `Idle` reads as. -/
theorem everyCommandCompletesAndLatches : Obligations.EveryCommandCompletesAndLatches := by
  intro i s
  have hop := commandAt_opField cfg i s
  refine ⟨commandAt cfg i s, exec_eq_commandAt i s, hop, ?_⟩
  intro hidle
  rw [hidle] at hop
  exact Instr.opcode_ne_zero i hop.symm

/-- Settles O19: the outcome is a function of what the rule lists, and `ACC` after the two streaming commands too. -/
theorem outcomeIndependentOfLatch : Obligations.OutcomeIndependentOfLatch := by
  intro i s₁ s₂ t₁ t₂ hf ha h0 h1 hacc h₁ h₂
  obtain rfl := exec_next h₁
  obtain rfl := exec_next h₂
  refine ⟨commandAt_last_congr cfg i hf ha h0 h1, ?_⟩
  rintro (rfl | rfl)
  · rfl
  · simp only [commandAt_acc, commandAcc, hacc rfl, ha]

end Sys2Proof.Machine
end

section
/-! PROOFS. The invariant: it holds at reset, each command's outcome is one the latch may hold, and so every step keeps
it (10_state.md R21, R27, R30; 60_exceptions.md R240). -/

namespace Sys2Proof.Machine

/-- `CRC.COMPUTE`, `HDR.PARSE` and `META.PARSE` may fail for want of their buffer operand. -/
theorem bufferOperand_error_consistent {s : State} {sel : Nat} {e : CmdError} {op : Byte} (fatal : Bool)
    (hop : op = opcCrcCompute ∨ op = opcHdrParse ∨ op = opcMetaParse) (h : bufferOperand s sel = .error e) :
    e.consistent fatal op := by
  rcases bufferOperand_eq_error.1 h with ⟨-, rfl⟩ | ⟨_, -, -, rfl⟩
  · rcases hop with rfl | rfl | rfl <;> simp [CmdError.consistent]
  · rcases hop with rfl | rfl | rfl <;> simp [CmdError.consistent]

/-- A bank's entry fails with the numbers of a buffer that the interface could carry, or with its length. -/
theorem bankEntry_error_consistent {c : Config} {m : Memory} {r : Region} {e : CmdError} (hm : Memory.wf m = true)
    (h : bankEntry c m r = .error e) : e.consistent false opcMetaBuild := by
  obtain ⟨b, rfl, ⟨hlt, rfl⟩ | ⟨-, -, rfl⟩⟩ := bankEntry_eq_error.1 h
  · exact ⟨.inr (.inl rfl), rfl, hlt, Memory.wf_some.1 hm⟩
  · exact .inr (.inl rfl)

theorem metaBuild_error_consistent {c : Config} {sel : Nat} {a b : Memory} {e : CmdError} (ha : Memory.wf a = true)
    (hb : Memory.wf b = true) (h : metaBuild c sel a b = .error e) : e.consistent false opcMetaBuild := by
  rcases metaBuild_eq_error.1 h with ⟨-, rfl⟩ | ⟨-, h | ⟨-, -, h⟩⟩
  · simp [CmdError.consistent]
  · exact bankEntry_error_consistent ha h
  · exact bankEntry_error_consistent hb h

/-- A merge fails with the budget of an image that the interface could carry. -/
theorem merge_error_consistent {c : Config} {boot app : List Byte} {e : CmdError} (hboot : boot.length ≤ maxLen)
    (happ : app.length ≤ maxLen) (h : merge c boot app = .error e) : e.consistent false opcMerge := by
  rcases merge_eq_error.1 h with ⟨hlt, rfl⟩ | ⟨-, hlt, rfl⟩
  · exact ⟨.inr (.inr rfl), rfl, hlt, hboot⟩
  · exact ⟨.inr (.inr rfl), rfl, hlt, happ⟩

/-- The error a command ends in is one that command can raise. -/
theorem commandOutcome_error_consistent {c : Config} {i : Instr} {s : State} {e : CmdError} (hs : Inv c s)
    (h : commandOutcome c i s = .error e) : e.consistent s.fatal i.opcode := by
  cases i with
  | crcInit => cases h
  | crcWord => cases h
  | crcCompute sel =>
    rcases crcComputeOutcome_eq_error.1 h with h | ⟨_, -, h⟩
    · exact bufferOperand_error_consistent _ (.inl rfl) h
    · obtain ⟨-, rfl⟩ := crcCompute_eq_error.1 h
      exact .inl rfl
  | hdrParse sel => exact bufferOperand_error_consistent _ (.inr (.inl rfl)) (hdrParseOutcome_eq_error.1 h)
  | fits sel =>
    rcases fitsOutcome_eq_error.1 h with h | ⟨r, -, ⟨hf, rfl⟩ | ⟨hf, hlt, rfl⟩⟩
    · obtain ⟨-, rfl⟩ := regionOperand_eq_error.1 h
      exact .inr (.inr (.inl rfl))
    · exact ⟨.inl rfl, hf⟩
    · exact ⟨.inl rfl, hf, hlt, Nat.le_sub_one_of_lt s.arg0.isLt⟩
  | metaBuild sel =>
    rcases metaBuildOutcome_eq_error.1 h with ⟨-, rfl⟩ | ⟨-, ⟨hf, rfl⟩ | ⟨hf, h⟩⟩
    · exact .inr (.inr (.inr (.inl rfl)))
    · exact ⟨.inr (.inl rfl), hf⟩
    · rw [hf]
      exact metaBuild_error_consistent hs.in0_wf hs.in1_wf h
  | metaParse sel =>
    rcases metaParseOutcome_eq_error.1 h with h | ⟨_, -, h⟩
    · exact bufferOperand_error_consistent _ (.inr (.inr rfl)) h
    · rcases metaParse_eq_error.1 h with ⟨-, rfl⟩ | ⟨-, -, rfl⟩
      · exact .inr (.inr rfl)
      · exact .inr (.inr (.inr (.inr rfl)))
  | merge =>
    rcases mergeOutcome_eq_error.1 h with ⟨hf, rfl⟩ | ⟨hf, ⟨-, rfl⟩ | ⟨boot, hboot, ⟨-, rfl⟩ | ⟨app, happ, h⟩⟩⟩
    · exact ⟨.inr (.inr rfl), hf⟩
    · exact .inr (.inr (.inr rfl))
    · exact .inr (.inr (.inr rfl))
    · rw [hf]
      exact merge_error_consistent (Memory.wf_some.1 (hboot ▸ hs.in0_wf)) (Memory.wf_some.1 (happ ▸ hs.in1_wf)) h

/-- `FATAL = 0` says that the layout is valid. -/
theorem Inv.layoutValid_of_not_fatal {c : Config} {s : State} (h : Inv c s) (hf : s.fatal = false) :
    layoutValid c = true := by
  simpa [hf] using h.fatal_eq

/-- The result a command computes is one the latch may hold after that command. -/
theorem commandOutcome_ok_consistent {c : Config} {i : Instr} {s : State} {l : Last} (hs : Inv c s)
    (h : commandOutcome c i s = .ok l) : l.consistent c s.fatal := by
  cases i with
  | crcInit => cases h; exact .inl rfl
  | crcWord => cases h; exact .inr (.inl rfl)
  | crcCompute sel =>
    obtain ⟨_, -, _, -, rfl⟩ := crcComputeOutcome_eq_ok.1 h
    rfl
  | hdrParse sel =>
    obtain ⟨b, -, rfl⟩ := hdrParseOutcome_eq_ok.1 h
    exact ⟨rfl, hdrParse_consistent b⟩
  | fits sel =>
    obtain ⟨_, -, hf, -, rfl⟩ := fitsOutcome_eq_ok.1 h
    exact .inr (.inr ⟨rfl, hf⟩)
  | metaBuild sel =>
    obtain ⟨-, hf, r, hr, rfl⟩ := metaBuildOutcome_eq_ok.1 h
    exact ⟨rfl, hf, metaBuild_buildable hr, rfl⟩
  | metaParse sel =>
    obtain ⟨b, -, r, hr, rfl⟩ := metaParseOutcome_eq_ok.1 h
    obtain ⟨-, hflag, rfl⟩ := metaParse_eq_ok.1 hr
    exact ⟨rfl, decide_eq_true hflag⟩
  | merge =>
    obtain ⟨hf, boot, -, app, -, m, hm, rfl⟩ := mergeOutcome_eq_ok.1 h
    have hlen := merge_length_of_valid (hs.layoutValid_of_not_fatal hf) hm
    obtain ⟨-, happ, -⟩ := merge_eq_ok.1 hm
    exact ⟨rfl, hf, by omega, by omega⟩

/-- Every command keeps the invariant. -/
theorem commandAt_keeps_inv {c : Config} {s : State} (i : Instr) (hs : Inv c s) : Inv c (commandAt c i s) where
  fatal_eq := by rw [commandAt_fatal, hs.fatal_eq]
  in0_wf := by rw [commandAt_in0, hs.in0_wf]
  in1_wf := by rw [commandAt_in1, hs.in1_wf]
  last_ok := by
    rw [commandAt_fatal]
    rcases commandAt_last c i s with ⟨l, hok, hlast⟩ | ⟨e, herr, hlast⟩
    · rw [hlast]
      exact commandOutcome_ok_consistent hs hok
    · rw [hlast]
      exact commandOutcome_error_consistent hs herr

theorem inv_resetAt (c : Config) : Inv c (State.resetAt c) := ⟨rfl, rfl, rfl, trivial⟩

/-- The invariant does not read the host's stream. -/
theorem Inv.with_stream {c : Config} {s : State} (hs : Inv c s) (p : List HostAction) (r : List Reply) :
    Inv c { s with pending := p, replies := r } :=
  ⟨hs.fatal_eq, hs.in0_wf, hs.in1_wf, hs.last_ok⟩

theorem Inv.setArg0 {c : Config} {s : State} (hs : Inv c s) (v : Word) : Inv c (s.setArg0 v) :=
  ⟨hs.fatal_eq, hs.in0_wf, hs.in1_wf, hs.last_ok⟩

/-- `IllegalCommand` may stand in the latch under any opcode (60_exceptions.md R247). -/
theorem Inv.raise_illegalCommand {c : Config} {s : State} (hs : Inv c s) (op : Byte) :
    Inv c (s.raise op .illegalCommand) :=
  ⟨hs.fatal_eq, hs.in0_wf, hs.in1_wf, trivial⟩

theorem Inv.setBuf {c : Config} {s : State} (hs : Inv c s) (i : Buf) {m : Memory} (hm : Memory.wf m = true) :
    Inv c (s.setBuf i m) where
  fatal_eq := by rw [State.setBuf_fatal, hs.fatal_eq]
  in0_wf := (State.setBuf_wf i hm hs.in0_wf hs.in1_wf).1
  in1_wf := (State.setBuf_wf i hm hs.in0_wf hs.in1_wf).2
  last_ok := by
    rw [State.setBuf_fatal, State.setBuf_last]
    exact hs.last_ok

/-- Settles O44, by the cases of a step: a command, an illegal word, a write of `ARG0`, an ignored write, a read, a change
of an input buffer, or reset. -/
theorem invariantKeptByEveryStep : Obligations.InvariantKeptByEveryStep := by
  intro s t hs h
  rcases step_cases h with ⟨-, rfl⟩ | ⟨a, rest, -, hcases⟩
  · exact hs
  have hs' : Inv cfg { s with pending := rest } := hs.with_stream rest s.replies
  rcases hcases with ⟨_, _, _, i, -, -, -, rfl⟩ | ⟨_, _, v, _, -, -, -, rfl⟩ | ⟨_, _, v, -, -, rfl⟩ |
    ⟨_, _, _, _, -, -, -, rfl⟩ | ⟨r, -, rfl⟩ | ⟨i, m, -, hm, rfl⟩ | ⟨-, rfl⟩
  · exact commandAt_keeps_inv i hs'
  · exact hs'.raise_illegalCommand _
  · exact hs'.setArg0 v
  · exact hs'
  · exact hs'.with_stream rest (r :: s.replies)
  · exact hs'.setBuf i hm
  · exact (inv_resetAt cfg).with_stream rest s.replies

/-- Settles O43: the invariant holds at the reset state of every configuration. -/
theorem invariantAtReset : Obligations.InvariantAtReset := inv_resetAt cfg

end Sys2Proof.Machine
end

section
/-! PROOFS. The registers as views of the state (10_state.md R31 to R37). -/

namespace Sys2Proof.Machine

/-! ### Words packed from bits and fields -/

@[simp] theorem getLsbD_bitWord (b : Bool) (k j : Nat) :
    (bitWord b k).getLsbD j = (decide (j < 32 ∧ j = k) && b) := by
  rcases Nat.lt_trichotomy j k with hlt | rfl | hgt
  · simp [bitWord, hlt, hlt.ne]
  · simp [bitWord]
  · have : 0 < j - k := by omega
    simp [bitWord, hgt.ne', this.ne']

@[simp] theorem getElem_bitWord (b : Bool) (k j : Nat) (hj : j < 32) : (bitWord b k)[j] = (decide (j = k) && b) := by
  rw [← BitVec.getLsbD_eq_getElem, getLsbD_bitWord]
  simp [hj]

theorem bitWord_false (k : Nat) : bitWord false k = 0#32 := by
  simp [bitWord]

/-! ### `STATUS` (10_state.md R31) -/

/-- The flag bits of `STATUS`, and the bit that is always 0. -/
theorem statusWord_flags (s : State) :
    (statusWord s).getLsbD 0 = s.last.isDone ∧ (statusWord s).getLsbD 1 = s.last.isError ∧
      (statusWord s).getLsbD 2 = s.last.isWarn ∧ (statusWord s).getLsbD 3 = s.fatal ∧
      (statusWord s).getLsbD 6 = s.last.outValid ∧ (statusWord s).getLsbD 7 = false := by
  simp [statusWord]

/-- The fields of `STATUS`, and the upper half that is always 0. -/
theorem statusWord_fields (s : State) :
    (statusWord s).extractLsb' 4 2 = s.last.hdrField ∧ (statusWord s).extractLsb' 8 8 = s.last.opField ∧
      (statusWord s).extractLsb' 16 16 = 0#16 := by
  refine ⟨?_, ?_, ?_⟩ <;>
  · apply BitVec.eq_of_getLsbD_eq
    intro k hk
    simp [statusWord]
    grind

/-- While `LAST` is `Idle`, `STATUS` shows `FATAL` alone. -/
theorem statusWord_of_idle {s : State} (h : s.last = .idle) : statusWord s = bitWord s.fatal 3 := by
  simp [statusWord, h, bitWord_false, Last.isDone, Last.isError, Last.isWarn, Last.hdrField, Last.outValid,
    Last.opField]

theorem HdrState.code_inj {x y : HdrState} : x.code = y.code ↔ x = y := by
  cases x <;> cases y <;> decide

theorem HdrState.zero_ne_code (x : HdrState) : 0#2 ≠ x.code := by
  cases x <;> decide

section
variable (l : Last)

theorem Last.isDone_iff : l.isDone = true ↔ l ≠ .idle := by
  cases l <;> simp [Last.isDone]

theorem Last.isError_iff : l.isError = true ↔ ∃ op e, l = .error op e := by
  cases l <;> simp [Last.isError]

theorem Last.isWarn_iff : l.isWarn = true ↔ ∃ op m hs, l = .merged op m hs ∧ hs ≠ .present := by
  cases l <;> simp [Last.isWarn]

theorem Last.outValid_iff :
    l.outValid = true ↔ (∃ op r b, l = .built op r b) ∨ ∃ op m hs, l = .merged op m hs := by
  cases l <;> simp [Last.outValid]

/-- `HDR` shows the header state of a parse or of a merge, and 0 in every other case. -/
theorem Last.hdrField_eq_code_iff (x : HdrState) :
    l.hdrField = x.code ↔ (∃ op h, l = .hdr op h ∧ h.state = x) ∨ ∃ op m, l = .merged op m x := by
  cases l <;> simp [Last.hdrField, HdrState.code_inj, HdrState.zero_ne_code]

end

theorem HdrResult.state_eq_present_iff (h : HdrResult) : h.state = .present ↔ ∃ f, h = .present f := by
  cases h <;> simp [HdrResult.state]

theorem HdrResult.state_eq_short_iff (h : HdrResult) : h.state = .short ↔ h = .absentShort := by
  cases h <;> simp [HdrResult.state]

theorem HdrResult.state_eq_badMagic_iff (h : HdrResult) : h.state = .badMagic ↔ ∃ m, h = .absentMagic m := by
  cases h <;> simp [HdrResult.state]

/-- Settles O45: each bit and field of the packed word, and in which cases of the latch it is set. -/
theorem statusRegisterFields : Obligations.StatusRegisterFields := by
  intro s
  obtain ⟨hdone, herr, hwarn, hfatal, hout, hzero⟩ := statusWord_flags s
  obtain ⟨hhdr, hop, hupper⟩ := statusWord_fields s
  refine ⟨rfl, ?_, ?_, ?_, hfatal, ?_, ?_, ?_, ?_, hzero, hop, hupper⟩
  · rw [hdone, Last.isDone_iff]
  · rw [herr, Last.isError_iff]
  · rw [hwarn, Last.isWarn_iff]
  · rw [hhdr, show 1#2 = HdrState.present.code from rfl]
    simpa [HdrResult.state_eq_present_iff] using s.last.hdrField_eq_code_iff .present
  · rw [hhdr, show 2#2 = HdrState.short.code from rfl]
    simpa [HdrResult.state_eq_short_iff] using s.last.hdrField_eq_code_iff .short
  · rw [hhdr, show 3#2 = HdrState.badMagic.code from rfl]
    simpa [HdrResult.state_eq_badMagic_iff] using s.last.hdrField_eq_code_iff .badMagic
  · rw [hout, Last.outValid_iff]

/-! ### The register list (10_state.md R33) -/

theorem registerList_nodup : registerList.Nodup := by decide

theorem mem_registerList (r : Reg) : r ∈ registerList := by
  cases r <;> decide

theorem Reg.ofOffset_eq_some_iff {off : Nat} {r : Reg} :
    Reg.ofOffset off = some r ↔ off % 4 = 0 ∧ registerList[off / 4]? = some r := by
  by_cases h : off % 4 = 0 <;> simp [Reg.ofOffset, h]

/-- The word offsets below `0x64` are the ones that name a register. -/
theorem Reg.exists_ofOffset_iff (off : Nat) : (∃ r, Reg.ofOffset off = some r) ↔ off % 4 = 0 ∧ off < 0x64 := by
  have hrange : (∃ r, registerList[off / 4]? = some r) ↔ off / 4 < 25 := by
    rw [← Option.isSome_iff_exists, isSome_getElem?]
    rfl
  simp only [Reg.ofOffset_eq_some_iff, exists_and_left, hrange]
  omega

/-- Every register has its place. -/
theorem Reg.exists_offset (r : Reg) : ∃ off, Reg.ofOffset off = some r := by
  obtain ⟨k, hk⟩ := List.getElem?_of_mem (mem_registerList r)
  refine ⟨4 * k, Reg.ofOffset_eq_some_iff.2 ⟨by omega, ?_⟩⟩
  rwa [Nat.mul_div_cancel_left k (by decide)]

/-- No register has two places. -/
theorem Reg.ofOffset_inj {off off' : Nat} {r : Reg} (h : Reg.ofOffset off = some r)
    (h' : Reg.ofOffset off' = some r) : off = off' := by
  obtain ⟨hmod, hget⟩ := Reg.ofOffset_eq_some_iff.1 h
  obtain ⟨hmod', hget'⟩ := Reg.ofOffset_eq_some_iff.1 h'
  have hlt : off / 4 < registerList.length := (List.getElem?_eq_some_iff.1 hget).1
  have hdiv : off / 4 = off' / 4 := (List.getElem?_inj hlt registerList_nodup).1 (hget.trans hget'.symm)
  omega

/-- Settles O48: the list read off place by place; it has 25 places, holds every register, and none twice. -/
theorem registerMap : Obligations.RegisterMap :=
  ⟨by decide, Reg.exists_ofOffset_iff, Reg.exists_offset, fun _ _ _ => Reg.ofOffset_inj⟩

/-! ### The registers of the latch (10_state.md R32, R34) -/

/-- Settles O46: by the latch and, in the case of an error, by its kind. -/
theorem errorRegistersView : Obligations.ErrorRegistersView := by
  intro s
  refine ⟨?_, ?_, ?_, ?_⟩
  · intro op e h
    cases e <;> simp [readReg, h, Last.errCode, CmdError.code]
  · intro op d l h
    simp [readReg, h, Last.errDeclared, Last.errLimit, CmdError.declared, CmdError.limit]
  · intro op e h hne
    cases e with
    | sizeExceeded d l => exact absurd rfl (hne d l)
    | _ => simp [readReg, h, Last.errDeclared, Last.errLimit, CmdError.declared, CmdError.limit]
  · intro hne
    cases h : s.last with
    | error op e => exact absurd h (hne op e)
    | _ => simp [readReg, h, Last.errCode, Last.errDeclared, Last.errLimit]

/-- The five cells are the first five places of the latch's results. -/
theorem resultCells_eq (c : Config) (s : State) :
    resultCells c s = (List.range 5).map fun k => (s.last.results c)[k]? := rfl

/-- Settles O47: the results of each case of the latch, and no value beyond their end. -/
theorem resultRegistersView : Obligations.ResultRegistersView := by
  intro s
  rw [resultCells_eq]
  cases h : s.last with
  | hdr op p => cases p <;> rfl
  | _ => rfl

/-! ### The registers of the operands and of the configuration (10_state.md R33) -/

/-- `IN_PRESENT` holds the two presence bits and zeros. -/
theorem presentWord_bits (s : State) :
    (presentWord s).getLsbD 0 = s.in0.isSome ∧ (presentWord s).getLsbD 1 = s.in1.isSome ∧
      (presentWord s).extractLsb' 2 30 = 0#30 := by
  refine ⟨by simp [presentWord], by simp [presentWord], ?_⟩
  apply BitVec.eq_of_getLsbD_eq
  intro k hk
  have hne : 2 + k ≠ 1 := by omega
  simp [presentWord, hne]

/-- Settles O58: two registers are fields of the state, and the third is packed from the presence of the buffers. -/
theorem operandAndPresenceRegistersView : Obligations.OperandAndPresenceRegistersView := by
  intro c s
  obtain ⟨h0, h1, hupper⟩ := presentWord_bits s
  refine ⟨rfl, rfl, presentWord s, rfl, ?_, ?_, hupper⟩
  · rw [h0, Option.isSome_iff_exists]
  · rw [h1, Option.isSome_iff_exists]

/-- A difference of words is the difference of their values modulo `2^32`. -/
theorem toNat_sub_eq_emod (a b : Word) : ((a - b).toNat : Int) = ((a.toNat : Int) - (b.toNat : Int)) % 2 ^ 32 := by
  have ha := a.isLt
  have hb := b.isLt
  rw [BitVec.toNat_sub]
  omega

/-- Settles O54: seven registers are fields or constants, one is a difference, one is packed from the two flags. -/
theorem configurationRegistersAreConstant : Obligations.ConfigurationRegistersAreConstant :=
  fun c _ => ⟨rfl, rfl, rfl, rfl, rfl, rfl, rfl, ⟨_, rfl, toNat_sub_eq_emod _ _⟩, _, rfl,
    Laws.EncodedFields.fields_of_parts c.flagB c.flagA⟩

/-! ### The registers after reset (10_state.md R37) -/

/-- Settles O42: the fields of the reset state, and the views of a state whose latch is `Idle` and whose buffers are
absent. -/
theorem resetState : Obligations.ResetState := by
  have hstatus : statusWord State.reset = bitWord State.reset.fatal 3 := statusWord_of_idle rfl
  have hpresent : presentWord State.reset = 0#32 := rfl
  exact ⟨rfl, rfl, rfl, rfl, rfl, rfl, hstatus, rfl, rfl, rfl, rfl, rfl, rfl, rfl, rfl, congrArg some hpresent⟩

end Sys2Proof.Machine
end

section
/-! PROOFS. One step taken off the host's stream (20_memory.md R71). -/

namespace Sys2Proof.Machine

/-- A step with an action pending carries it out, the action taken off the stream. -/
theorem step_of_pending {s : State} {a : HostAction} {rest : List HostAction} (h : s.pending = a :: rest) :
    step s = hostAct cfg exec a { s with pending := rest } := by
  simp only [step, stepWith, h]

/-- A write to `CMD` of a legal word runs its command. -/
theorem issue_of_decode {w : Word} {i : Instr} (h : decode w = .ok i)
    (run : Instr → State → Host.Outcome State Fault Refusal) (s : State) : issue run w s = run i s := by
  simp only [issue, h]

/-- Settles O13: the step carries out the write, the write to `CMD` issues its word, and the word is the command's. -/
theorem stepRunsDecodedCommand : Obligations.StepRunsDecodedCommand := by
  intro s w i rest hp hw
  calc step s = issue exec w { s with pending := rest } := step_of_pending hp
    _ = exec i { s with pending := rest } := issue_of_decode hw exec _

/-- `HostLoad` of a buffer the interface can carry. -/
theorem step_load {s : State} {i : Buf} {b : List Byte} {rest : List HostAction} (hp : s.pending = .load i b :: rest)
    (hb : b.length ≤ maxLen) : step s = .next (State.setBuf { s with pending := rest } i (some b)) := by
  rw [step_of_pending hp]
  exact if_pos hb

/-- `HostClear`. -/
theorem step_clear {s : State} {i : Buf} {rest : List HostAction} (hp : s.pending = .clear i :: rest) :
    step s = .next (State.setBuf { s with pending := rest } i none) :=
  step_of_pending hp

/-- Settles O51: both actions replace the one buffer they name. -/
theorem hostLoadsAndClearsBuffers : Obligations.HostLoadsAndClearsBuffers :=
  fun _ _ => ⟨fun _ hb => ⟨fun hp => step_load hp hb, fun hp => step_load hp hb⟩, step_clear, step_clear⟩

/-- `HostReadOut` of a range inside `OUT`. -/
theorem hostReadOut_of_le {off n : Nat} {s : State} {b : List Byte} (hout : s.last.out = some b)
    (hle : off + n ≤ b.length) : hostReadOut off n s = .next (s.reply (.bytes ((b.drop off).take n))) := by
  simp only [hostReadOut, hout, hle, if_true]

/-- `HostReadOut` of a range that runs past the end of `OUT`. -/
theorem hostReadOut_of_lt {off n : Nat} {s : State} {b : List Byte} (hout : s.last.out = some b)
    (hlt : b.length < off + n) : hostReadOut off n s = .refused (.noOutput off n) := by
  simp only [hostReadOut, hout, hlt.not_ge, if_false]

/-- `HostReadOut` where there is no `OUT`. -/
theorem hostReadOut_of_none {off n : Nat} {s : State} (hout : s.last.out = none) :
    hostReadOut off n s = .refused (.noOutput off n) := by
  simp only [hostReadOut, hout]

/-- Settles O52, by where the range lies; inside `OUT` the bytes delivered are those of the range. -/
theorem hostReadOutDelivers : Obligations.HostReadOutDelivers := by
  intro s off n rest hp
  have hstep : step s = hostReadOut off n { s with pending := rest } := step_of_pending hp
  rw [hstep]
  refine ⟨?_, fun b hout hlt => hostReadOut_of_lt hout hlt, fun hout => hostReadOut_of_none hout⟩
  intro b hout hle
  refine ⟨(b.drop off).take n, hostReadOut_of_le hout hle, ?_, ?_⟩
  · rw [List.length_take, List.length_drop]
    omega
  · intro k hk
    rw [List.getElem?_take_of_lt hk, List.getElem?_drop]

end Sys2Proof.Machine
end

section
/-! PROOFS. Side effects and idempotency of the commands (20_memory.md R68). -/

namespace Sys2Proof.Machine

/-- Ending a command twice with one `ACC` and one outcome is ending it once. -/
theorem State.finish_setAcc_idem (s : State) (v : Word) (op : Byte) (r : Except CmdError Last) :
    (((s.setAcc v).finish op r).setAcc v).finish op r = (s.setAcc v).finish op r := by
  cases r <;> rfl

/-- A command reads none of the fields it writes but, in `CRC.WORD`, `ACC`: its outcome is the same after it. -/
theorem commandOutcome_commandAt (c : Config) (i : Instr) (s : State) :
    commandOutcome c i (commandAt c i s) = commandOutcome c i s :=
  commandOutcome_congr c i (commandAt_fatal ..) (commandAt_arg0 ..) (commandAt_in0 ..) (commandAt_in1 ..)

/-- `ACC` after a second run is `ACC` after the first, but for `CRC.WORD`, which folds one more word. -/
theorem commandAcc_commandAt (c : Config) {i : Instr} (s : State) (hword : i ≠ .crcWord) :
    commandAcc i (commandAt c i s) = commandAcc i s := by
  cases i with
  | crcInit => rfl
  | crcWord => exact absurd rfl hword
  | _ => exact commandAt_acc ..

/-- A second run of a command other than `CRC.WORD` changes nothing, in a block of any configuration. -/
theorem commandAt_idem (c : Config) {i : Instr} (s : State) (hword : i ≠ .crcWord) :
    commandAt c i (commandAt c i s) = commandAt c i s := by
  rw [commandAt_eq_finish c i (commandAt c i s), commandAcc_commandAt c s hword, commandOutcome_commandAt,
    commandAt_eq_finish c i s, State.finish_setAcc_idem]

/-- Settles O20: the second run writes the `ACC` and the outcome of the first. -/
theorem commandsExceptCrcWordAreIdempotent : Obligations.CommandsExceptCrcWordAreIdempotent := by
  intro i s t hword h
  obtain rfl := exec_next h
  rw [exec_eq_commandAt, commandAt_idem cfg s hword]

end Sys2Proof.Machine
end

section
/-! PROOFS. The bound on the output buffer and on every length a register shows (20_memory.md R74, 00_scope.md R16). -/

namespace Sys2Proof.Machine

/-- Under a valid layout the application region ends where the 32-bit address space still has room for bank B and the
data region, counted from `BOOT_BASE`. -/
theorem appOffset_add_appSize_le {c : Config} (hv : layoutValid c = true) :
    c.appOffset + c.appSize.toNat ≤ 2 ^ 32 - c.bootBase.toNat := by
  obtain ⟨-, hboot, hbankA, hbankB, hdata, -⟩ := (layoutValid_iff c).1 hv
  simp only [Config.appOffset, Config.appBase, Config.appSize]
  omega

/-- The data region is not empty, so the bound is strict even where `BOOT_BASE = 0`. -/
theorem appOffset_add_appSize_lt {c : Config} (hv : layoutValid c = true) :
    c.appOffset + c.appSize.toNat < 2 ^ 32 := by
  obtain ⟨-, hboot, hbankA, hbankB, hdata, hsize, -⟩ := (layoutValid_iff c).1 hv
  simp only [Config.appOffset, Config.appBase, Config.appSize]
  omega

/-- The application's bytes in the merged image are meant for the application's place in flash (20_memory.md R62). -/
theorem mergedFlashAddr_appOffset_add {c : Config} (hv : layoutValid c = true) (j : Nat) :
    mergedFlashAddr c (c.appOffset + j) = appFlashAddr c j := by
  obtain ⟨-, hboot, -⟩ := (layoutValid_iff c).1 hv
  simp only [mergedFlashAddr, appFlashAddr, Config.appOffset, Config.appBase]
  omega

/-- Settles O35: the exact length, the application's budget, and the end of the application region. -/
theorem mergeOutputIsBounded : Obligations.MergeOutputIsBounded := by
  intro c boot app m hv hm
  have hlen := merge_length_of_valid hv hm
  obtain ⟨-, happ, -⟩ := merge_eq_ok.1 hm
  have hbound : m.length ≤ c.appOffset + c.appSize.toNat := by
    rw [hlen]
    exact Nat.add_le_add_left happ _
  exact ⟨hlen, hbound, appOffset_add_appSize_le hv, hbound.trans_lt (appOffset_add_appSize_lt hv),
    mergedFlashAddr_appOffset_add hv⟩

/-- The register's view of a buffer the interface can carry does not reach `2^32`. -/
theorem Memory.len_lt_of_wf {m : Memory} (h : Memory.wf m = true) : Memory.len m < 2 ^ 32 := by
  cases m with
  | none => decide
  | some b => exact Nat.lt_of_le_pred (by decide) (Memory.wf_some.1 h)

/-- `OUT` is a record or a merged image, so its length does not reach `2^32` (20_memory.md R74). -/
theorem Inv.outLen_lt {c : Config} {s : State} (hs : Inv c s) : s.last.outLen < 2 ^ 32 := by
  have hlast := hs.last_ok
  cases h : s.last with
  | built op r out =>
    rw [h] at hlast
    obtain ⟨-, -, -, rfl⟩ := hlast
    simp [Last.outLen, Last.out]
  | merged op m hdr =>
    rw [h] at hlast
    obtain ⟨-, hf, -, hle⟩ := hlast
    exact hle.trans_lt (appOffset_add_appSize_lt (hs.layoutValid_of_not_fatal hf))
  | _ => exact Nat.two_pow_pos 32

/-- The numbers of a latched `SizeExceeded` are those of a length the interface can carry (60_exceptions.md R240). -/
theorem Inv.sizeExceeded_lt {c : Config} {s : State} {op : Byte} {d l : Nat} (hs : Inv c s)
    (h : s.last = .error op (.sizeExceeded d l)) : d < 2 ^ 32 ∧ l < 2 ^ 32 := by
  have hlast := hs.last_ok
  rw [h] at hlast
  obtain ⟨-, -, hlt, hle⟩ := hlast
  have hd : d < 2 ^ 32 := Nat.lt_of_le_pred (by decide) hle
  exact ⟨hd, hlt.trans hd⟩

/-- Settles O57: each of the numbers is below `2^32`, so the 32-bit register that shows it keeps it whole. -/
theorem lengthRegistersAreExact : Obligations.LengthRegistersAreExact := by
  intro c s hs
  refine ⟨⟨_, rfl, Nat.mod_eq_of_lt hs.outLen_lt⟩,
    ⟨_, rfl, Nat.mod_eq_of_lt (Memory.len_lt_of_wf hs.in0_wf)⟩,
    ⟨_, rfl, Nat.mod_eq_of_lt (Memory.len_lt_of_wf hs.in1_wf)⟩, ?_⟩
  intro op d l h
  obtain ⟨hd, hl⟩ := hs.sizeExceeded_lt h
  have hdeclared : s.last.errDeclared = BitVec.ofNat 32 d := by rw [h]; rfl
  have hlimit : s.last.errLimit = BitVec.ofNat 32 l := by rw [h]; rfl
  exact ⟨_, _, congrArg some hdeclared, Nat.mod_eq_of_lt hd, congrArg some hlimit,
    Nat.mod_eq_of_lt hl⟩

end Sys2Proof.Machine
end

section
/-! PROOFS. The host's register accesses: what an access names, and what a read answers (20_memory.md R66, R68;
30_encoding.md R111). -/

namespace Sys2Proof.Machine

/-! ### The register an access names -/

theorem accessReg_of_not_aligned {width off : Nat} (h : width ≠ 4 ∨ off % 4 ≠ 0) :
    accessReg width off = .error (.notAlignedWord width off) :=
  if_pos h

/-- An aligned word access names what the register list holds at its offset. -/
theorem accessReg_of_aligned {off : Nat} (h : off % 4 = 0) :
    accessReg 4 off = (Reg.ofOffset off).elim (.error (.unmappedOffset off)) .ok := by
  cases hreg : Reg.ofOffset off <;> simp [accessReg, h, hreg]

theorem accessReg_of_unmapped {off : Nat} (h : off % 4 = 0) (hreg : Reg.ofOffset off = none) :
    accessReg 4 off = .error (.unmappedOffset off) := by
  rw [accessReg_of_aligned h, hreg, Option.elim_none]

theorem accessReg_of_mapped {off : Nat} {r : Reg} (h : off % 4 = 0) (hreg : Reg.ofOffset off = some r) :
    accessReg 4 off = .ok r := by
  rw [accessReg_of_aligned h, hreg, Option.elim_some]

/-! ### What a read answers -/

section
variable {c : Config} {width off : Nat} {s : State}

theorem hostRead_of_refused {e : Refusal} (h : accessReg width off = .error e) :
    hostRead c width off s = .refused e := by
  simp only [hostRead, h]

theorem hostRead_of_no_value {r : Reg} (h : accessReg width off = .ok r) (hv : readReg c s r = none) :
    hostRead c width off s = .refused (.noResultValue r) := by
  simp only [hostRead, h, hv]

theorem hostRead_of_value {r : Reg} {v : Word} (h : accessReg width off = .ok r) (hv : readReg c s r = some v) :
    hostRead c width off s = .next (s.reply (.word v)) := by
  simp only [hostRead, h, hv]

end

/-- No register shows the host's stream. -/
theorem readReg_with_pending (c : Config) (s : State) (p : List HostAction) (r : Reg) :
    readReg c { s with pending := p } r = readReg c s r := by
  cases r <;> rfl

/-- Settles O49, by what the access names and by whether the register has a value. -/
theorem hostReadDelivers : Obligations.HostReadDelivers := by
  intro s width off rest hp
  have hstep : step s = hostRead cfg width off { s with pending := rest } := step_of_pending hp
  rw [hstep]
  refine ⟨fun h => hostRead_of_refused (accessReg_of_not_aligned h), ?_, ?_⟩
  · rintro rfl hoff hreg
    exact hostRead_of_refused (accessReg_of_unmapped hoff hreg)
  · rintro rfl hoff r hreg
    have hacc := accessReg_of_mapped hoff hreg
    rw [← readReg_with_pending cfg s rest r]
    exact ⟨hostRead_of_no_value hacc, fun v hv => hostRead_of_value hacc hv⟩

end Sys2Proof.Machine
end

section
/-! PROOFS. The command word (30_encoding.md R90 to R95): a word is its three fields, the decoder reads a command from
exactly the words whose fields are the command's, and so the decoder and the encoder agree. -/

namespace Sys2Proof

/-! ### A word and its three fields (30_encoding.md R90) -/

/-- The three fields cover the word. -/
theorem word_eq_append_fields (w : Word) : w = (fieldRsv w ++ fieldSel w) ++ fieldOpc w := by
  apply BitVec.eq_of_getLsbD_eq
  intro k hk
  simp [fieldRsv, fieldSel, fieldOpc]
  grind

/-- Words with the same fields are the same word. -/
theorem word_ext_fields {v w : Word} (hrsv : fieldRsv v = fieldRsv w) (hsel : fieldSel v = fieldSel w)
    (hopc : fieldOpc v = fieldOpc w) : v = w := by
  rw [word_eq_append_fields v, word_eq_append_fields w, hrsv, hsel, hopc]

/-- `SEL` as a number is the word's second byte. -/
theorem toNat_fieldSel (w : Word) : (fieldSel w).toNat = w.toNat / 256 % 256 := by
  simp [fieldSel, Nat.shiftRight_eq_div_pow]

/-- The mask of a table row with selector leaves out the bits of `SEL` and no others. -/
theorem fields_and_rowMask (w : Word) :
    fieldRsv (w &&& 0xFFFF00FF#32) = fieldRsv w ∧ fieldSel (w &&& 0xFFFF00FF#32) = 0#8 ∧
      fieldOpc (w &&& 0xFFFF00FF#32) = fieldOpc w :=
  ⟨BitVec.extractLsb'_and.trans BitVec.and_allOnes, BitVec.extractLsb'_and.trans BitVec.and_zero,
    BitVec.extractLsb'_and.trans BitVec.and_allOnes⟩

/-- The fields of a word that holds an opcode and nothing else. -/
theorem fields_setWidth (opc : Byte) :
    fieldRsv (opc.setWidth 32) = 0#16 ∧ fieldSel (opc.setWidth 32) = 0#8 ∧ fieldOpc (opc.setWidth 32) = opc := by
  obtain ⟨hopc, hsel, hrsv⟩ := Laws.EncodedFields.fields_of_parts 0#8 opc
  simp at hopc hsel hrsv
  exact ⟨hrsv, hsel, hopc⟩

/-- A word matches a table row with selector when `RSV` is 0 and `OPC` is the row's opcode (30_encoding.md R91). -/
theorem and_rowMask_eq_iff (w : Word) (opc : Byte) :
    w &&& 0xFFFF00FF#32 = opc.setWidth 32 ↔ fieldRsv w = 0#16 ∧ fieldOpc w = opc := by
  obtain ⟨hrsv, hsel, hopc⟩ := fields_and_rowMask w
  obtain ⟨hrsv', hsel', hopc'⟩ := fields_setWidth opc
  constructor
  · intro h
    rw [← hrsv, ← hopc, h]
    exact ⟨hrsv', hopc'⟩
  · rintro ⟨h1, h2⟩
    exact word_ext_fields (by rw [hrsv, hrsv', h1]) (by rw [hsel, hsel']) (by rw [hopc, hopc', h2])

/-! ### What a word carries -/

/-- The word `w` carries the command `i`: `RSV` is 0, `OPC` is the command's opcode, `SEL` its selector, which is 0
for a command without selector (30_encoding.md R91, R92). -/
def Carries (w : Word) (i : Instr) : Prop :=
  fieldRsv w = 0#16 ∧ fieldOpc w = i.opcode ∧ (fieldSel w).toNat = i.selector

/-- A command can be written when its selector is below 256. -/
theorem Instr.wellFormed_iff (i : Instr) : i.wellFormed = true ↔ i.selector < 256 := by
  cases i <;> simp [Instr.wellFormed, selFits, Instr.selector]

/-- A word carries a command exactly when the command is well-formed and the word is its encoding. -/
theorem carries_iff_encode {w : Word} {i : Instr} : Carries w i ↔ i.wellFormed = true ∧ encode i = w := by
  obtain ⟨hopc', hsel', hrsv'⟩ : Laws.EncodedFields.Statement i := Laws.EncodedFields.fields_of_parts _ _
  rw [Instr.wellFormed_iff]
  constructor
  · rintro ⟨hrsv, hopc, hsel⟩
    refine ⟨hsel ▸ (fieldSel w).isLt, word_ext_fields (hrsv'.trans hrsv.symm) ?_ (hopc'.trans hopc.symm)⟩
    rw [hsel', ← hsel, BitVec.ofNat_toNat, BitVec.setWidth_eq]
  · rintro ⟨hlt, rfl⟩
    refine ⟨hrsv', hopc', ?_⟩
    rw [hsel', BitVec.toNat_ofNat, Nat.mod_eq_of_lt hlt]

/-- A word carries a command exactly when it matches the command's row and its second byte is the selector. -/
theorem carries_iff_row {w : Word} {i : Instr} :
    Carries w i ↔ w &&& 0xFFFF00FF#32 = i.opcode.setWidth 32 ∧ i.selector = w.toNat / 256 % 256 := by
  rw [Carries, and_rowMask_eq_iff, toNat_fieldSel, and_assoc, eq_comm (a := i.selector)]

/-! ### The decoder (30_encoding.md R91) -/

theorem withoutSelector_eq_ok {w : Word} {i j : Instr} :
    withoutSelector w i = .ok j ↔ fieldSel w = 0#8 ∧ i = j := by
  by_cases h : fieldSel w = 0#8 <;> simp [withoutSelector, h]

theorem carries_of_withoutSelector {w : Word} {i j : Instr} (h : withoutSelector w i = .ok j) (hi : i.selector = 0)
    (hrsv : fieldRsv w = 0#16) (hopc : fieldOpc w = i.opcode) : Carries w j := by
  obtain ⟨hsel, rfl⟩ := withoutSelector_eq_ok.1 h
  exact ⟨hrsv, hopc, by rw [hsel, hi]; rfl⟩

theorem carries_of_decode {w : Word} {i : Instr} (h : decode w = .ok i) : Carries w i := by
  by_cases hrsv : fieldRsv w = 0#16
  · rw [decode, if_neg (not_not.2 hrsv)] at h
    split_ifs at h with hopc hopc hopc hopc hopc hopc hopc hopc
    · exact carries_of_withoutSelector h rfl hrsv hopc
    · exact carries_of_withoutSelector h rfl hrsv hopc
    · cases h; exact ⟨hrsv, hopc, rfl⟩
    · cases h; exact ⟨hrsv, hopc, rfl⟩
    · cases h; exact ⟨hrsv, hopc, rfl⟩
    · cases h; exact ⟨hrsv, hopc, rfl⟩
    · cases h; exact ⟨hrsv, hopc, rfl⟩
    · exact carries_of_withoutSelector h rfl hrsv hopc
  · rw [decode, if_pos hrsv] at h
    cases h

theorem decode_of_carries {w : Word} {i : Instr} (h : Carries w i) : decode w = .ok i := by
  obtain ⟨hrsv, hopc, hsel⟩ := h
  have hzero : i.selector = 0 → fieldSel w = 0#8 := fun hi => BitVec.eq_of_toNat_eq (hsel.trans hi)
  rw [decode, if_neg (not_not.2 hrsv), hopc]
  cases i with
  | crcInit | crcWord | merge => exact withoutSelector_eq_ok.2 ⟨hzero rfl, rfl⟩
  | crcCompute | hdrParse | fits | metaBuild | metaParse => cases hsel; rfl

/-- The decoder reads a command from exactly the words that carry it. -/
theorem decode_eq_ok_iff_carries {w : Word} {i : Instr} : decode w = .ok i ↔ Carries w i :=
  ⟨carries_of_decode, decode_of_carries⟩

/-- The decoder reads a command from its own word alone, and only if the command is well-formed. -/
theorem decode_eq_ok_iff_encode {w : Word} {i : Instr} : decode w = .ok i ↔ i.wellFormed = true ∧ encode i = w :=
  decode_eq_ok_iff_carries.trans carries_iff_encode

/-- A word is illegal exactly when it decodes to no command. -/
theorem exists_decode_eq_error_iff {w : Word} : (∃ e, decode w = .error e) ↔ ∀ i, decode w ≠ .ok i := by
  cases decode w <;> simp

/-- A statement about every command, one conjunct per row of the opcode table. -/
theorem Instr.forall_iff {p : Instr → Prop} : (∀ i, p i) ↔
    p .crcInit ∧ p .crcWord ∧ (∀ sel, p (.crcCompute sel)) ∧ (∀ sel, p (.hdrParse sel)) ∧ (∀ sel, p (.fits sel)) ∧
      (∀ sel, p (.metaBuild sel)) ∧ (∀ sel, p (.metaParse sel)) ∧ p .merge := by
  constructor
  · intro h
    exact ⟨h _, h _, fun _ => h _, fun _ => h _, fun _ => h _, fun _ => h _, fun _ => h _, h _⟩
  · rintro ⟨h1, h2, h3, h4, h5, h6, h7, h8⟩ i
    cases i with
    | crcInit => exact h1
    | crcWord => exact h2
    | crcCompute sel => exact h3 sel
    | hdrParse sel => exact h4 sel
    | fits sel => exact h5 sel
    | metaBuild sel => exact h6 sel
    | metaParse sel => exact h7 sel
    | merge => exact h8

/-- A row with selector: its command is read from the words that match the row. -/
theorem decode_eq_ok_iff_row (w : Word) (i : Instr) :
    decode w = .ok i ↔ w &&& 0xFFFF00FF#32 = i.opcode.setWidth 32 ∧ i.selector = w.toNat / 256 % 256 :=
  decode_eq_ok_iff_carries.trans carries_iff_row

/-- A row without selector: its mask is the whole word, and its match is the command's word. -/
theorem decode_eq_ok_iff_fullMask (w : Word) {i : Instr} (hi : i.wellFormed = true) :
    decode w = .ok i ↔ w &&& 0xFFFFFFFF#32 = encode i := by
  have hmask : w &&& 0xFFFFFFFF#32 = w := BitVec.and_allOnes
  rw [decode_eq_ok_iff_encode, hmask, eq_comm (a := w)]
  simp only [hi, true_and]

/-- Settles O2: the word of a well-formed command carries it. -/
theorem decodeOfEncode : Obligations.DecodeOfEncode :=
  fun _ hi => decode_eq_ok_iff_encode.2 ⟨hi, rfl⟩

/-- Settles O3: the word carries the command, so its fields are those of the command's encoding. -/
theorem encodeOfDecode : Obligations.EncodeOfDecode :=
  fun _ _ h => decode_eq_ok_iff_encode.1 h

/-- Settles O4: each row as what its command's word carries; an illegal word is one that matches none of the rows. -/
theorem decodeMatchesOpcodeTable : Obligations.DecodeMatchesOpcodeTable := by
  intro w
  have hcrcInit : decode w = .ok .crcInit ↔ w &&& 0xFFFFFFFF#32 = 0x00000001#32 := decode_eq_ok_iff_fullMask w rfl
  have hcrcWord : decode w = .ok .crcWord ↔ w &&& 0xFFFFFFFF#32 = 0x00000002#32 := decode_eq_ok_iff_fullMask w rfl
  have hmerge : decode w = .ok .merge ↔ w &&& 0xFFFFFFFF#32 = 0x00000040#32 := decode_eq_ok_iff_fullMask w rfl
  have hrow := decode_eq_ok_iff_row w
  refine ⟨hcrcInit, hcrcWord, fun sel => hrow (.crcCompute sel), fun sel => hrow (.hdrParse sel),
    fun sel => hrow (.fits sel), fun sel => hrow (.metaBuild sel), fun sel => hrow (.metaParse sel), hmerge, ?_⟩
  -- No command at all: row by row, and the row's selector always exists, so only its mask can fail to match.
  simp only [exists_decode_eq_error_iff, Instr.forall_iff, ne_eq, hcrcInit, hcrcWord, hmerge]
  simp only [hrow, Instr.selector, not_and', forall_eq]
  exact Iff.rfl

/-- Settles O1: the decoder run on each word. -/
theorem decodeReadsSampleWords : Obligations.DecodeReadsSampleWords :=
  ⟨rfl, rfl, rfl, rfl, rfl, rfl, rfl, rfl, rfl, rfl, rfl, rfl, rfl, rfl, rfl⟩

end Sys2Proof
end

section
/-! PROOFS. The two byte formats: the parse of a firmware header reads its first 20 bytes (30_encoding.md R96, R98), and
the reserved bytes of a record are written as zero and never read (R102). -/

namespace Sys2Proof.Machine

/-! ### Reads below a cut (20_memory.md R64) -/

theorem byteAt_take {b : List Byte} {n i : Nat} (h : i < n) : byteAt (b.take n) i = byteAt b i := by
  simp only [byteAt, List.getD_eq_getElem?_getD, List.getElem?_take_of_lt h]

theorem wordAt_take {b : List Byte} {n off : Nat} (h : off + 4 ≤ n) : wordAt (b.take n) off = wordAt b off := by
  unfold wordAt
  rw [byteAt_take (by omega), byteAt_take (by omega), byteAt_take (by omega), byteAt_take (by omega)]

/-- The five fields of a header stand in the first 20 bytes (30_encoding.md R96). -/
theorem headerFields_take (b : List Byte) : headerFields (b.take 20) = headerFields b := by
  simp only [headerFields, Nat.reduceAdd, Nat.reduceLeDiff, wordAt_take]

/-- Of an image that is long enough the parse reads the header's fields only (41_header.md R150, R152). -/
theorem hdrParse_of_hdrSize_le {img : List Byte} (h : hdrSize ≤ img.length) :
    hdrParse img = if (headerFields img).magic ≠ hdrMagic then .absentMagic (headerFields img).magic
      else .present (headerFields img) :=
  if_neg h.not_gt

/-- Settles O28: both parses read the fields, and the fields stand in the 20 bytes that agree. -/
theorem headerParseIgnoresBytesFrom20 : Obligations.HeaderParseIgnoresBytesFrom20 := by
  intro a b ha hb h
  have hfields : headerFields a = headerFields b := by
    rw [← headerFields_take a, h, headerFields_take]
  rw [hdrParse_of_hdrSize_le ha, hdrParse_of_hdrSize_le hb, hfields]

/-! ### A word and its four bytes (20_memory.md R63) -/

/-- The bytes of an assembled word are the bytes it was assembled from. -/
theorem bytesLe32_le32 (b0 b1 b2 b3 : Byte) : bytesLe32 (le32 b0 b1 b2 b3) = [b0, b1, b2, b3] := by
  simp only [bytesLe32, List.cons.injEq, and_true]
  refine ⟨?_, ?_, ?_, ?_⟩ <;>
  · apply BitVec.eq_of_getLsbD_eq
    intro k hk
    simp [le32]
    grind

/-! ### The record (30_encoding.md R100 to R102) -/

/-- Parsing what was written gives the record back, if its flag is one of the two (43_metadata.md R198, R199). -/
theorem metaParse_metaSerialize {c : Config} {r : MetaRecord} (hr : r.valid c = true) :
    metaParse c (metaSerialize r) = .ok r := by
  have haSize : wordAt (metaSerialize r) 4 = r.aSize := le32_bytes r.aSize
  have hbSize : wordAt (metaSerialize r) 8 = r.bSize := le32_bytes r.bSize
  have haCrc : wordAt (metaSerialize r) 12 = r.aCrc := le32_bytes r.aCrc
  have hbCrc : wordAt (metaSerialize r) 16 = r.bCrc := le32_bytes r.bCrc
  refine metaParse_eq_ok.2 ⟨rfl, of_decide_eq_true hr, ?_⟩
  rw [haSize, hbSize, haCrc, hbCrc]
  rfl

/-- The bytes of the word at an offset are the four bytes that stand there; the rest of the sequence follows them. -/
theorem bytesLe32_wordAt_append_drop {b : List Byte} {off : Nat} (h : off + 4 ≤ b.length) :
    bytesLe32 (wordAt b off) ++ b.drop (off + 4) = b.drop off := by
  rw [List.drop_eq_getElem_cons (i := off) (by omega), List.drop_eq_getElem_cons (i := off + 1) (by omega),
    List.drop_eq_getElem_cons (i := off + 2) (by omega), List.drop_eq_getElem_cons (i := off + 3) (by omega),
    wordAt, bytesLe32_le32, byteAt_eq_getElem, byteAt_eq_getElem, byteAt_eq_getElem, byteAt_eq_getElem]
  rfl

/-- Writing a parsed record gives the bytes it came from, but for zeros in bytes 1 to 3. -/
theorem metaSerialize_of_metaParse {c : Config} {b : List Byte} {r : MetaRecord} (h : metaParse c b = .ok r) :
    metaSerialize r = b.take 1 ++ [0#8, 0#8, 0#8] ++ b.drop 4 := by
  obtain ⟨hlen : b.length = 20, -, rfl⟩ := metaParse_eq_ok.1 h
  have hflag : b.take 1 = [byteAt b 0] := by
    cases b with
    | nil => cases hlen
    | cons => rfl
  have hend : b.drop 20 = [] := List.drop_eq_nil_of_le hlen.le
  have hwords : bytesLe32 (wordAt b 4) ++ (bytesLe32 (wordAt b 8) ++ (bytesLe32 (wordAt b 12) ++
      (bytesLe32 (wordAt b 16) ++ b.drop 20))) = b.drop 4 := by
    rw [bytesLe32_wordAt_append_drop (off := 16) (by omega), bytesLe32_wordAt_append_drop (off := 12) (by omega),
      bytesLe32_wordAt_append_drop (off := 8) (by omega), bytesLe32_wordAt_append_drop (off := 4) (by omega)]
  rw [hflag, ← hwords, hend]
  rfl

/-- A parsed record writes back the bytes it came from exactly when the reserved ones were zero (R102). -/
theorem metaSerialize_eq_iff_of_metaParse {c : Config} {b : List Byte} {r : MetaRecord} (h : metaParse c b = .ok r) :
    metaSerialize r = b ↔ (b.drop 1).take 3 = [0#8, 0#8, 0#8] := by
  constructor
  · rintro rfl
    rfl
  · intro hzero
    rw [metaSerialize_of_metaParse h, ← hzero, List.append_assoc, List.drop_take_append_drop, List.take_append_drop]

/-- The parser reads the length, byte 0 and the words from byte 4 on: bytes 1 to 3 are dropped (43_metadata.md R198). -/
theorem metaParse_congr_reserved (c : Config) (f x y z x' y' z' : Byte) (rest : List Byte) :
    metaParse c (f :: x :: y :: z :: rest) = metaParse c (f :: x' :: y' :: z' :: rest) :=
  rfl

/-- Settles O38: the bytes that are written, the two round trips, and the parser's indifference. -/
theorem reservedRecordBytes : Obligations.ReservedRecordBytes :=
  ⟨fun r => ⟨metaSerialize_length r, rfl⟩, fun _ _ => metaParse_metaSerialize,
    fun _ _ _ => metaSerialize_eq_iff_of_metaParse, metaParse_congr_reserved⟩

end Sys2Proof.Machine
end

section
/-! PROOFS. What a host write that issues no command answers (10_state.md R26, 30_encoding.md R111). -/

namespace Sys2Proof.Machine

section
variable {run : Instr → State → Host.Outcome State Fault Refusal} {width off : Nat} {v : Word} {s : State}

theorem hostWrite_of_refused {e : Refusal} (h : accessReg width off = .error e) :
    hostWrite run width off v s = .refused e := by
  simp only [hostWrite, h]

theorem hostWrite_of_arg0 (h : accessReg width off = .ok .arg0) :
    hostWrite run width off v s = .next (s.setArg0 v) := by
  simp only [hostWrite, h]

/-- A write of a register that is neither `CMD` nor `ARG0` is ignored. -/
theorem hostWrite_of_readOnly {r : Reg} (h : accessReg width off = .ok r) (hcmd : r ≠ .cmd) (harg0 : r ≠ .arg0) :
    hostWrite run width off v s = .next s := by
  cases r with
  | cmd => exact absurd rfl hcmd
  | arg0 => exact absurd rfl harg0
  | _ => simp only [hostWrite, h]

end

/-- Settles O50: the reads are cases of `hostReadDelivers`; a write answers by what its access names. -/
theorem hostWriteOutsideCmd : Obligations.HostWriteOutsideCmd := by
  refine ⟨?_, ?_⟩
  · intro s off rest hp
    obtain ⟨-, hunmapped, hmapped⟩ := hostReadDelivers s 4 off rest hp
    refine ⟨?_, hunmapped rfl⟩
    rintro rfl
    exact (hmapped rfl rfl .cmd rfl).2 0#32 rfl
  · intro s width off v rest hp
    have hstep : step s = hostWrite exec width off v { s with pending := rest } := step_of_pending hp
    rw [hstep]
    refine ⟨fun h => hostWrite_of_refused (accessReg_of_not_aligned h), ?_, ?_, ?_⟩
    · rintro rfl hoff hreg
      exact hostWrite_of_refused (accessReg_of_unmapped hoff hreg)
    · rintro rfl rfl
      exact hostWrite_of_arg0 (accessReg_of_mapped rfl rfl)
    · rintro rfl hoff r hreg hcmd harg0
      exact hostWrite_of_readOnly (accessReg_of_mapped hoff hreg) hcmd harg0

end Sys2Proof.Machine
end

section
/-! PROOFS. The rounds of the Checksum Engine: their arithmetic, and the algebra of `crc_word` (40_crc.md R130, R131,
R137 (a) to (d)). -/

namespace Sys2Proof.Machine

/-! ### One round (40_crc.md R130) -/

theorem toNat_shiftLeft_one (a : Word) : (a <<< 1).toNat = a.toNat * 2 % 2 ^ 32 := by
  rw [BitVec.toNat_shiftLeft, Nat.shiftLeft_eq, pow_one]

theorem msb_iff_toNat_div (a : Word) : a.msb = true ↔ a.toNat / 2 ^ 31 = 1 := by
  rw [BitVec.msb_eq_decide, decide_eq_true_eq]
  omega

/-- What a round XORs in: the polynomial where bit 31 was set, nothing otherwise. -/
theorem crcRound_eq_xor (a : Word) : crcRound a = (a <<< 1) ^^^ (if a.msb then crcPoly else 0#32) := by
  cases h : a.msb <;> simp [crcRound, h]

/-- Settles O21: the test of bit 31 is the quotient by `2^31`, the shift the doubling modulo `2^32`. -/
theorem crcRoundArithmetic : Obligations.CrcRoundArithmetic := by
  intro a
  rw [crcRound, apply_ite BitVec.toNat, BitVec.toNat_xor, toNat_shiftLeft_one]
  simp only [msb_iff_toNat_div]
  rfl

theorem crcRound_xor (p q : Word) : crcRound (p ^^^ q) = crcRound p ^^^ crcRound q := by
  have hpoly : (if (p ^^^ q).msb then crcPoly else 0#32) =
      (if p.msb then crcPoly else 0#32) ^^^ (if q.msb then crcPoly else 0#32) := by
    rw [BitVec.msb_xor]
    cases p.msb <;> cases q.msb <;> rfl
  rw [crcRound_eq_xor, crcRound_eq_xor, crcRound_eq_xor, hpoly, BitVec.shiftLeft_xor_distrib]
  ac_rfl

/-- The low bit of the polynomial is 1 and 0 is shifted in, so the low bit after a round is bit 31 before it. -/
theorem crcRound_getLsbD_zero (a : Word) : (crcRound a).getLsbD 0 = a.msb := by
  cases h : a.msb <;> simp [crcRound_eq_xor, h, crcPoly]

/-- A round can be undone: its low bit tells whether the polynomial was XORed in (40_crc.md R137 (d)). -/
theorem crcRound_injective : Function.Injective crcRound := by
  intro p q h
  have hmsb : p.msb = q.msb := by rw [← crcRound_getLsbD_zero, h, crcRound_getLsbD_zero]
  have hshift : p <<< 1 = q <<< 1 := by
    rw [crcRound_eq_xor, crcRound_eq_xor, hmsb] at h
    exact (BitVec.xor_left_inj _).1 h
  have hlow : p.toNat * 2 % 2 ^ 32 = q.toNat * 2 % 2 ^ 32 := by
    rw [← toNat_shiftLeft_one, hshift, toNat_shiftLeft_one]
  have hhigh : p.toNat / 2 ^ 31 = 1 ↔ q.toNat / 2 ^ 31 = 1 := by rw [← msb_iff_toNat_div, hmsb, msb_iff_toNat_div]
  apply BitVec.eq_of_toNat_eq
  omega

theorem crcRound_bijective : Function.Bijective crcRound :=
  Finite.injective_iff_bijective.1 crcRound_injective

/-! ### The rounds of one word (40_crc.md R131) -/

theorem crcRounds_eq_iterate (n : Nat) (a : Word) : crcRounds n a = crcRound^[n] a := by
  induction n generalizing a with
  | zero => rfl
  | succ n ih => exact ih (crcRound a)

theorem crcRounds_xor (n : Nat) (p q : Word) : crcRounds n (p ^^^ q) = crcRounds n p ^^^ crcRounds n q := by
  induction n generalizing p q with
  | zero => rfl
  | succ n ih => rw [crcRounds, crcRound_xor, ih, crcRounds, crcRounds]

theorem crcRounds_zero (n : Nat) : crcRounds n 0#32 = 0#32 := by
  induction n with
  | zero => rfl
  | succ n ih => exact ih

theorem crcRounds_bijective (n : Nat) : Function.Bijective (crcRounds n) := by
  rw [funext (crcRounds_eq_iterate n)]
  exact crcRound_bijective.iterate n

theorem xor_left_bijective (a : Word) : Function.Bijective (a ^^^ ·) :=
  Function.Involutive.bijective (xor_cancel_left a)

theorem crcWord_zero_right (a : Word) : crcWord a 0#32 = crcRounds crcRoundCount a := by
  rw [crcWord, BitVec.xor_zero]

theorem crcWord_self (a : Word) : crcWord a a = 0#32 := by
  rw [crcWord, BitVec.xor_self, crcRounds_zero]

theorem crcWord_bijective (a : Word) : Function.Bijective (crcWord a) :=
  (crcRounds_bijective crcRoundCount).comp (xor_left_bijective a)

/-- Settles O22: the rounds are linear and can be undone one by one, and XORing a word in is undone by doing it again. -/
theorem crcWordAlgebra : Obligations.CrcWordAlgebra := by
  refine ⟨fun a w => (crcWord_zero_right _).symm, crcWord_self, crcRound_xor, ?_, ?_, crcWord_bijective⟩
  · intro p q
    simp only [crcWord_zero_right, crcRounds_xor]
  · simp only [crcWord_zero_right]
    exact crcRounds_bijective crcRoundCount

end Sys2Proof.Machine
end

section
/-! PROOFS. `crc_word` as a remainder of polynomials over GF(2) (40_crc.md R137 (e)): one round multiplies by `X` modulo
`X^32 + P`. -/

open Polynomial

namespace Sys2Proof.Machine

/-- A word as a polynomial over GF(2), bit `k` the coefficient of `X^k`. -/
noncomputable def wordPoly (v : Word) : (ZMod 2)[X] :=
  ∑ k ∈ Finset.range 32, if v.getLsbD k then X ^ k else 0

/-- `X^32 + P`, with `P` the polynomial of 40_crc.md R130. -/
noncomputable def crcModulus : (ZMod 2)[X] := X ^ 32 + wordPoly crcPoly

theorem wordPoly_zero : wordPoly 0#32 = 0 := by
  simp [wordPoly]

theorem wordPoly_xor (v w : Word) : wordPoly (v ^^^ w) = wordPoly v + wordPoly w := by
  rw [wordPoly, wordPoly, wordPoly, ← Finset.sum_add_distrib]
  refine Finset.sum_congr rfl fun k _ => ?_
  rw [BitVec.getLsbD_xor]
  cases v.getLsbD k <;> cases w.getLsbD k <;> simp [CharTwo.add_self_eq_zero]

theorem degree_wordPoly_lt (v : Word) : (wordPoly v).degree < (32 : ℕ) := by
  rw [← mem_degreeLT]
  refine Submodule.sum_mem _ fun k hk => ?_
  split
  · rw [mem_degreeLT, degree_X_pow]
    exact_mod_cast Finset.mem_range.1 hk
  · exact Submodule.zero_mem _

theorem crcModulus_monic : crcModulus.Monic :=
  monic_X_pow_add (degree_wordPoly_lt crcPoly)

theorem degree_crcModulus : crcModulus.degree = (32 : ℕ) := by
  rw [crcModulus, degree_add_eq_left_of_degree_lt] <;> rw [degree_X_pow]
  exact degree_wordPoly_lt crcPoly

theorem getLsbD_shiftLeft_one_succ (v : Word) {k : Nat} (hk : k < 31) : (v <<< 1).getLsbD (k + 1) = v.getLsbD k := by
  have hlt : k + 1 < 32 := Nat.succ_lt_succ hk
  rw [BitVec.getLsbD_shiftLeft, Nat.add_sub_cancel]
  simp only [hlt, decide_true, Nat.not_lt.2 (Nat.le_add_left 1 k), decide_false, Bool.not_false, Bool.true_and]

/-- The shift multiplies by `X`, but for the term `X^32` of the bit that is dropped. -/
theorem wordPoly_mul_X (v : Word) :
    wordPoly v * X = wordPoly (v <<< 1) + if v.msb then X ^ 32 else 0 := by
  have hmsb : v.msb = v.getLsbD 31 := rfl
  have hlow : ∑ k ∈ Finset.range 31, (if (v <<< 1).getLsbD (k + 1) then X ^ (k + 1) else 0 : (ZMod 2)[X]) =
      ∑ k ∈ Finset.range 31, if v.getLsbD k then X ^ (k + 1) else 0 :=
    Finset.sum_congr rfl fun k hk => by
      rw [getLsbD_shiftLeft_one_succ v (Finset.mem_range.1 hk)]
  simp only [wordPoly, Finset.sum_mul, ite_mul, zero_mul, ← pow_succ]
  rw [Finset.sum_range_succ _ 31, Finset.sum_range_succ' _ 31, hlow, hmsb]
  simp

/-- One round multiplies by `X`, modulo `X^32 + P`. -/
theorem crcModulus_dvd_crcRound (v : Word) : crcModulus ∣ wordPoly (crcRound v) - wordPoly v * X := by
  rw [crcRound_eq_xor, wordPoly_xor, wordPoly_mul_X]
  cases v.msb
  · simp [wordPoly_zero]
  · rw [if_pos rfl, if_pos rfl, CharTwo.sub_eq_add, crcModulus]
    simp [add_add_add_comm, CharTwo.add_self_eq_zero, add_comm]

theorem crcModulus_dvd_crcRounds (n : Nat) (v : Word) :
    crcModulus ∣ wordPoly (crcRounds n v) - wordPoly v * X ^ n := by
  induction n generalizing v with
  | zero => simp [crcRounds]
  | succ n ih =>
    have hsplit : wordPoly (crcRounds (n + 1) v) - wordPoly v * X ^ (n + 1) =
        (wordPoly (crcRounds n (crcRound v)) - wordPoly (crcRound v) * X ^ n) +
          (wordPoly (crcRound v) - wordPoly v * X) * X ^ n := by
      rw [crcRounds]
      ring
    rw [hsplit]
    exact dvd_add (ih (crcRound v)) ((crcModulus_dvd_crcRound v).mul_right _)

/-- Settles O23: the 32 rounds multiply by `X^32` modulo `X^32 + P`, and a word's polynomial is its own remainder. -/
theorem crcWordIsPolynomialRemainder : Obligations.CrcWordIsPolynomialRemainder := by
  intro a w
  have hrem : wordPoly (crcWord a w) %ₘ crcModulus = wordPoly (crcWord a w) := by
    rw [modByMonic_eq_self_iff crcModulus_monic, degree_crcModulus]
    exact degree_wordPoly_lt _
  calc wordPoly (crcWord a w) = wordPoly (crcWord a w) %ₘ crcModulus := hrem.symm
    _ = (wordPoly (a ^^^ w) * X ^ 32) %ₘ crcModulus :=
      modByMonic_eq_of_dvd_sub crcModulus_monic (crcModulus_dvd_crcRounds 32 (a ^^^ w))

end Sys2Proof.Machine
end

section
/-! PROOFS. The checksum of a buffer (40_crc.md R132, R139, R140): which lengths it accepts, and its words in order. -/

namespace Sys2Proof.Machine

theorem crcCompute_of_length {d : List Byte} (h : d.length % 4 = 0) :
    crcCompute d = .ok (crcFold crcInitial (wordsLe d)) :=
  crcCompute_eq_ok.2 ⟨h, rfl⟩

theorem crcCompute_of_bad_length {d : List Byte} (h : d.length % 4 ≠ 0) : crcCompute d = .error .invalidInputLength :=
  crcCompute_eq_error.2 ⟨h, rfl⟩

theorem crcCompute_nil : crcCompute [] = .ok crcInitial := rfl

/-- Settles O24: the length test is the only test. -/
theorem checksumLengthAcceptance : Obligations.ChecksumLengthAcceptance :=
  ⟨crcCompute_nil, fun _ => ⟨crcCompute_of_bad_length, fun h => ⟨_, crcCompute_of_length h⟩⟩⟩

/-- Induction over a buffer word by word, the recursion of `wordsLe`. -/
theorem words_induction {p : List Byte → Prop} (hnil : p [])
    (hcons : ∀ b0 b1 b2 b3 rest, p rest → p (b0 :: b1 :: b2 :: b3 :: rest)) :
    ∀ {d : List Byte}, d.length % 4 = 0 → p d
  | [], _ => hnil
  | [_], h => absurd h (by simp)
  | [_, _], h => absurd h (by simp)
  | [_, _, _], h => absurd h (by simp)
  | b0 :: b1 :: b2 :: b3 :: rest, h => by
    have hrest : rest.length % 4 = 0 := (Nat.add_mod_right rest.length 4).symm.trans h
    exact hcons b0 b1 b2 b3 rest (words_induction hnil hcons hrest)

theorem wordsLe_length {d : List Byte} (h : d.length % 4 = 0) : (wordsLe d).length = d.length / 4 := by
  refine words_induction (p := fun d => (wordsLe d).length = d.length / 4) rfl (fun b0 b1 b2 b3 rest ih => ?_) h
  simp only [wordsLe_cons, List.length_cons, ih]
  omega

/-- Whole words leave the cut of what follows them alone. -/
theorem wordsLe_append {d : List Byte} (h : d.length % 4 = 0) (e : List Byte) :
    wordsLe (d ++ e) = wordsLe d ++ wordsLe e := by
  refine words_induction (p := fun d => wordsLe (d ++ e) = wordsLe d ++ wordsLe e) rfl (fun b0 b1 b2 b3 rest ih => ?_) h
  simp only [List.cons_append, wordsLe_cons, ih]

theorem crcFold_append (a : Word) (ws vs : List Word) : crcFold a (ws ++ vs) = crcFold (crcFold a ws) vs :=
  List.foldl_append

/-- Settles O25: the four bytes are one more word at the end, folded in last. -/
theorem checksumOfAppendedWord : Obligations.ChecksumOfAppendedWord := by
  intro d v b0 b1 b2 b3 hd
  obtain ⟨hlen, rfl⟩ := crcCompute_eq_ok.1 hd
  have hlen' : (d ++ [b0, b1, b2, b3]).length % 4 = 0 := by simpa using hlen
  rw [crcCompute_of_length hlen', wordsLe_append hlen, crcFold_append]
  rfl

end Sys2Proof.Machine
end

section
/-! PROOFS. The commands of the Checksum Engine (40_crc.md R134 to R136). -/

namespace Sys2Proof.Machine

/-! ### What a command answers, and what `STATUS` reads after it -/

/-- A command whose outcome is a result latches it and writes its `ACC`. -/
theorem exec_of_outcome_ok {i : Instr} {s : State} {l : Last} (h : commandOutcome cfg i s = .ok l) :
    exec i s = .next ((s.setAcc (commandAcc i s)).latch l) := by
  rw [exec_eq_commandAt, commandAt_eq_finish, h, State.finish_ok]

/-- A command whose outcome is an error takes it under its own opcode. -/
theorem exec_of_outcome_error {i : Instr} {s : State} {e : CmdError} (h : commandOutcome cfg i s = .error e) :
    exec i s = .next ((s.setAcc (commandAcc i s)).raise i.opcode e) := by
  rw [exec_eq_commandAt, commandAt_eq_finish, h, State.finish_error]

/-- What the latch shows in `STATUS` (10_state.md R31), the bit `FATAL` left 0. -/
def Last.statusBits (l : Last) : Word :=
  bitWord l.isDone 0 ||| bitWord l.isError 1 ||| bitWord l.isWarn 2 ||| (l.hdrField.setWidth 32 <<< 4) |||
    bitWord l.outValid 6 ||| (l.opField.setWidth 32 <<< 8)

/-- `STATUS` is what the latch shows, beside the bit `FATAL`. -/
theorem statusWord_of_statusBits {s : State} {l : Last} {v : Word} (hlast : s.last = l) (hbits : l.statusBits = v) :
    statusWord s = v ||| bitWord s.fatal 3 := by
  rw [statusWord, hlast, ← hbits, Last.statusBits]
  ac_rfl

theorem Last.statusBits_crcInit : (Last.done opcCrcInit).statusBits = 0x00000101#32 := by decide

theorem Last.statusBits_crcWord : (Last.done opcCrcWord).statusBits = 0x00000201#32 := by decide

/-- A latched checksum shows the same flags whatever its value is. -/
theorem Last.statusBits_crcCompute (v : Word) : (Last.crc opcCrcCompute v).statusBits = 0x00000301#32 :=
  calc (Last.crc opcCrcCompute v).statusBits = (Last.crc opcCrcCompute 0#32).statusBits := rfl
    _ = 0x00000301#32 := by decide

/-! ### `CRC.INIT` and `CRC.WORD` -/

/-- Settles O5: the command writes a constant to each of `ACC` and `LAST`, so issuing it again writes the same. -/
theorem crcInitEffect : Obligations.CrcInitEffect :=
  ⟨rfl, fun _ => ⟨exec_of_outcome_ok rfl, exec_of_outcome_ok rfl,
    statusWord_of_statusBits rfl Last.statusBits_crcInit⟩⟩

theorem crcWord_initial_zero : crcWord 0xFFFFFFFF#32 0x00000000#32 = 0xC704DD7B#32 := by decide +kernel

/-- Settles O6: the effect, the flags, and a word folded into itself; then the worked example. -/
theorem crcWordEffect : Obligations.CrcWordEffect := by
  refine ⟨rfl, fun s => ⟨exec_of_outcome_ok rfl, statusWord_of_statusBits rfl Last.statusBits_crcWord, ?_⟩,
    crcWord_initial_zero⟩
  intro h
  rw [h, crcWord_self]

/-! ### `CRC.COMPUTE` -/

theorem crcCompute_worked_example :
    crcCompute [0x11#8, 0x22#8, 0x33#8, 0x44#8, 0x55#8, 0x66#8, 0x77#8, 0x88#8] = .ok 0x3712888E#32 := by
  decide +kernel

section
variable {sel : Nat} {s : State}

theorem exec_crcCompute_of_error {e : CmdError} (h : crcComputeOutcome sel s = .error e) :
    exec (.crcCompute sel) s = .next { s with last := .error 0x03#8 e } :=
  exec_of_outcome_error h

theorem exec_crcCompute_of_operand_error {e : CmdError} (h : bufferOperand s sel = .error e) :
    exec (.crcCompute sel) s = .next { s with last := .error 0x03#8 e } :=
  exec_crcCompute_of_error (crcComputeOutcome_eq_error.2 (.inl h))

theorem exec_crcCompute_of_bad_length {b : List Byte} (hb : bufferOperand s sel = .ok b) (hlen : b.length % 4 ≠ 0) :
    exec (.crcCompute sel) s = .next { s with last := .error 0x03#8 .invalidInputLength } :=
  exec_crcCompute_of_error (crcComputeOutcome_eq_error.2 (.inr ⟨b, hb, crcCompute_of_bad_length hlen⟩))

theorem exec_crcCompute_of_ok {b : List Byte} {v : Word} (hb : bufferOperand s sel = .ok b)
    (hv : crcCompute b = .ok v) : exec (.crcCompute sel) s = .next { s with last := .crc 0x03#8 v } :=
  exec_of_outcome_ok (crcComputeOutcome_eq_ok.2 ⟨b, hb, v, hv, rfl⟩)

end

/-- Settles O7, by the first check that fails; when none does, the checksum is the result. -/
theorem crcComputeEffect : Obligations.CrcComputeEffect := by
  refine ⟨rfl, rfl, crcCompute_nil, crcCompute_worked_example, fun sel s => ⟨?_, fun i hi => ⟨?_, fun b hb => ?_⟩⟩⟩
  · intro hsel
    exact exec_crcCompute_of_operand_error (bufferOperand_eq_error.2 (.inl ⟨hsel, rfl⟩))
  · intro hnone
    exact exec_crcCompute_of_operand_error (bufferOperand_eq_error.2 (.inr ⟨i, hi, hnone, rfl⟩))
  · have hoperand : bufferOperand s sel = .ok b := bufferOperand_eq_ok.2 ⟨i, hi, hb⟩
    refine ⟨exec_crcCompute_of_bad_length hoperand, fun hlen => ?_⟩
    have hv := crcCompute_of_length hlen
    exact ⟨_, hv, exec_crcCompute_of_ok hoperand hv, rfl,
      statusWord_of_statusBits rfl (Last.statusBits_crcCompute _)⟩

end Sys2Proof.Machine
end

section
/-! PROOFS. The streaming checksum (40_crc.md R138): the host's stream, action by action, folds a buffer's words into
`ACC`. -/

namespace Sys2Proof.Machine

/-- A step that goes on is the first of a run. -/
theorem run_succ_of_step {s t : State} (h : step s = .next t) (k : Nat) :
    Host.Core.run core (k + 1) s = Host.Core.run core k t := by
  have hcore : core.step s = .next t := h
  simp only [Host.Core.run, hcore]

/-- A pending write of a command's word runs the command. -/
theorem step_command {s : State} {i : Instr} {rest : List HostAction} (hi : i.wellFormed = true)
    (hp : s.pending = .writeReg 4 cmdOffset (encode i) :: rest) :
    step s = .next (commandAt cfg i { s with pending := rest }) := by
  rw [stepRunsDecodedCommand s (encode i) i rest hp (decodeOfEncode i hi), exec_eq_commandAt]

/-- A pending write of `ARG0` sets it. -/
theorem step_writeArg0 {s : State} {w : Word} {rest : List HostAction}
    (hp : s.pending = .writeReg 4 arg0Offset w :: rest) :
    step s = .next (State.setArg0 { s with pending := rest } w) := by
  rw [step_of_pending hp]
  exact hostWrite_of_arg0 (run := exec) (accessReg_of_mapped (off := arg0Offset) rfl rfl)

/-- The host's two actions for one word of a stream. -/
def wordActions (w : Word) : List HostAction := [.writeReg 4 arg0Offset w, .writeReg 4 cmdOffset (encode .crcWord)]

theorem streamActions_eq (ws : List Word) :
    streamActions ws = .writeReg 4 cmdOffset (encode .crcInit) :: ws.flatMap wordActions := rfl

/-- The two actions of a word are two steps: `ARG0` takes the word, `CRC.WORD` folds it in. -/
theorem run_wordActions {s : State} {w : Word} {rest : List HostAction} (hp : s.pending = wordActions w ++ rest)
    (k : Nat) :
    Host.Core.run core (k + 2) s = Host.Core.run core k (crcWordAt { s with arg0 := w, pending := rest }) := by
  rw [run_succ_of_step (step_writeArg0 hp), run_succ_of_step (step_command (i := .crcWord) (rest := rest) rfl rfl)]
  rfl

/-- The actions of a list of words run to their end, and `ACC` is the fold of the words. -/
theorem run_flatMap_wordActions (ws : List Word) {s : State} (hp : s.pending = ws.flatMap wordActions) :
    ∃ t, Host.Core.run core (2 * ws.length) s = .next t ∧
      t.acc = crcFold s.acc ws ∧ t.pending = [] ∧ t.in0 = s.in0 ∧ t.in1 = s.in1 := by
  induction ws generalizing s with
  | nil => exact ⟨s, rfl, rfl, hp, rfl, rfl⟩
  | cons w ws ih =>
    rw [List.length_cons, Nat.mul_succ, run_wordActions hp]
    exact ih rfl

/-- Settles O26: `CRC.INIT` starts the fold at the initial value, each word's two actions fold it in; every other
command's `ACC` is the one before it. -/
theorem streamingEqualsBuffered : Obligations.StreamingEqualsBuffered := by
  refine ⟨fun s d v hd => ?_, fun i s t hinit hword h => ?_⟩
  · obtain ⟨hlen, rfl⟩ := crcCompute_eq_ok.1 hd
    have hstart := step_command (s := { s with pending := streamActions (wordsLe d) }) (i := .crcInit) rfl
      (streamActions_eq _)
    rw [Nat.add_comm, run_succ_of_step hstart, ← wordsLe_length hlen]
    exact run_flatMap_wordActions (wordsLe d) rfl
  · rw [exec_next h, commandAt_acc, commandAcc_of_not_streaming s hinit hword]

end Sys2Proof.Machine
end

section
/-! PROOFS. The header codec (41_header.md R150 to R155): the three outcomes of a parse, an image that carries version
1.2.3, and the command `HDR.PARSE`. -/

namespace Sys2Proof.Machine

/-! ### The three outcomes of a parse -/

theorem hdrParse_of_short {img : List Byte} (h : img.length < hdrSize) : hdrParse img = .absentShort :=
  if_pos h

section
variable {img : List Byte} (hlen : hdrSize ≤ img.length)
include hlen

theorem hdrParse_of_bad_magic (hmagic : (headerFields img).magic ≠ hdrMagic) :
    hdrParse img = .absentMagic (headerFields img).magic := by
  rw [hdrParse_of_hdrSize_le hlen, if_pos hmagic]

theorem hdrParse_of_magic (hmagic : (headerFields img).magic = hdrMagic) :
    hdrParse img = .present (headerFields img) := by
  rw [hdrParse_of_hdrSize_le hlen, if_neg (not_not.2 hmagic)]

end

/-- Settles O27: the three outcomes, the magic and the fields read as the words of `headerFields`. -/
theorem headerParseOutcomes : Obligations.HeaderParseOutcomes :=
  fun _ => ⟨hdrParse_of_short, hdrParse_of_bad_magic, hdrParse_of_magic⟩

/-! ### An image that carries version 1.2.3 (41_header.md R155) -/

/-- The first eight bytes of the image: the magic, then the version. -/
def version123Start : List Byte := [0xEF#8, 0xBE#8, 0xAD#8, 0xDE#8, 0x03#8, 0x02#8, 0x01#8, 0x00#8]

/-- Its magic and version are the words of these eight bytes, whatever follows them. -/
theorem headerFields_version123Start (rest : List Byte) :
    (headerFields (version123Start ++ rest)).magic = hdrMagic ∧
      (headerFields (version123Start ++ rest)).version = 0x00010203#32 :=
  ⟨le32_bytes hdrMagic, le32_bytes 0x00010203#32⟩

/-- With 56 bytes after these eight the image is long enough, so its header is present. -/
theorem hdrParse_version123Start {rest : List Byte} (hlen : rest.length = 56) :
    hdrParse (version123Start ++ rest) = .present (headerFields (version123Start ++ rest)) := by
  refine hdrParse_of_magic ?_ (headerFields_version123Start rest).1
  rw [List.length_append, hlen]
  decide

theorem versionStr_123 : versionStr 0x00010203#32 = "v1.2.3" := by decide

/-- Settles O29: the header is present, and the string is that of its version. -/
theorem headerVersionString : Obligations.HeaderVersionString := by
  intro rest hlen
  have hparse := hdrParse_version123Start hlen
  obtain ⟨-, hversion⟩ := headerFields_version123Start rest
  refine ⟨(HdrResult.state_eq_present_iff _).2 ⟨_, hparse⟩, ?_⟩
  calc (hdrParse (version123Start ++ rest)).versionStr?
      = some (versionStr (headerFields (version123Start ++ rest)).version) := by rw [hparse]; rfl
    _ = some "v1.2.3" := by rw [hversion, versionStr_123]

/-! ### `HDR.PARSE` (41_header.md R153) -/

section
variable {sel : Nat} {s : State}

theorem exec_hdrParse_of_operand_error {e : CmdError} (h : bufferOperand s sel = .error e) :
    exec (.hdrParse sel) s = .next { s with last := .error 0x10#8 e } :=
  exec_of_outcome_error (i := .hdrParse sel) (hdrParseOutcome_eq_error.2 h)

/-- Of a buffer that is there the parse is latched, present or absent: the parse itself cannot fail. -/
theorem exec_hdrParse_of_operand {b : List Byte} (h : bufferOperand s sel = .ok b) :
    exec (.hdrParse sel) s = .next { s with last := .hdr 0x10#8 (hdrParse b) } :=
  exec_of_outcome_ok (i := .hdrParse sel) (hdrParseOutcome_eq_ok.2 ⟨b, h, rfl⟩)

end

/-- A latched parse shows `DONE`, its opcode and its header state, whatever the words are that it read. -/
theorem Last.statusBits_hdrParse {h : HdrResult} {x : HdrState} (hx : h.state = x) :
    (Last.hdr opcHdrParse h).statusBits = 0x00001001#32 ||| (x.code.setWidth 32 <<< 4) := by
  subst hx
  have hbits : (Last.hdr opcHdrParse h).statusBits =
      bitWord true 0 ||| bitWord false 1 ||| bitWord false 2 ||| (h.state.code.setWidth 32 <<< 4) |||
        bitWord false 6 ||| (opcHdrParse.setWidth 32 <<< 8) := rfl
  rw [hbits]
  cases h.state <;> decide

theorem Last.statusBits_hdrParse_present (h : Header) :
    (Last.hdr opcHdrParse (.present h)).statusBits = 0x00001011#32 :=
  Last.statusBits_hdrParse (x := .present) rfl

theorem Last.statusBits_hdrParse_absentShort : (Last.hdr opcHdrParse .absentShort).statusBits = 0x00001021#32 :=
  Last.statusBits_hdrParse (x := .short) rfl

theorem Last.statusBits_hdrParse_absentMagic (m : Word) :
    (Last.hdr opcHdrParse (.absentMagic m)).statusBits = 0x00001031#32 :=
  Last.statusBits_hdrParse (x := .badMagic) rfl

/-- Settles O8, by the first check that fails; when none does, by what the parse found. -/
theorem hdrParseEffect : Obligations.HdrParseEffect := by
  refine ⟨rfl, rfl, fun rest hlen => ⟨_, hdrParse_version123Start hlen, headerFields_version123Start rest⟩,
    fun sel s => ⟨?_, fun i hi => ⟨?_, fun b hb => ?_⟩⟩⟩
  · intro hsel
    exact exec_hdrParse_of_operand_error (bufferOperand_eq_error.2 (.inl ⟨hsel, rfl⟩))
  · intro hnone
    exact exec_hdrParse_of_operand_error (bufferOperand_eq_error.2 (.inr ⟨i, hi, hnone, rfl⟩))
  · refine ⟨exec_hdrParse_of_operand (bufferOperand_eq_ok.2 ⟨i, hi, hb⟩), fun h hparse => ?_, fun hparse => ?_,
      fun m hparse => ?_⟩ <;> rw [hparse]
    · exact ⟨rfl, statusWord_of_statusBits rfl (Last.statusBits_hdrParse_present h)⟩
    · exact ⟨rfl, statusWord_of_statusBits rfl Last.statusBits_hdrParse_absentShort⟩
    · exact ⟨rfl, statusWord_of_statusBits rfl (Last.statusBits_hdrParse_absentMagic m)⟩

end Sys2Proof.Machine
end

section
/-! PROOFS. The Bank Layout Model as functions of the configuration (42_layout.md R170 to R175, R177). -/

namespace Sys2Proof.Machine

/-! ### The budget check -/

/-- Settles O32: `fits` compares with the region's size, and each corner lies on one side of it. -/
theorem fitsBoundaries : Obligations.FitsBoundaries := by
  intro c r
  refine ⟨fits_eq_ok.2 (Nat.zero_le _), fits_eq_ok.2 le_rfl, fits_eq_error.2 ⟨Nat.lt_succ_self _, rfl⟩, ?_⟩
  intro hsize
  exact fits_eq_error.2 ⟨hsize, rfl⟩

/-! ### `app_offset` (42_layout.md R175) -/

/-- The contiguity predicate as its conjuncts, with the bootloader's size written out. -/
theorem layoutContiguous_iff (c : Config) : layoutContiguous c = true ↔
    c.bootBase.toNat + 8192 = c.bankABase.toNat ∧
    c.bankABase.toNat + c.bankSize.toNat = c.bankBBase.toNat ∧
    c.bankBBase.toNat + c.bankSize.toNat = c.dataBase.toNat := by
  unfold layoutContiguous
  rw [decide_eq_true_eq]
  rfl

section
variable {c : Config}

/-- Under a valid layout the application does not begin before the bootloader. -/
theorem bootBase_le_appBase (hv : layoutValid c = true) : c.bootBase ≤ c.appBase := by
  obtain ⟨⟨hlt, -⟩, -⟩ := (layoutValid_iff c).1 hv
  exact hlt.le

theorem bootBase_add_appOffset (hv : layoutValid c = true) : c.bootBase.toNat + c.appOffset = c.bankABase.toNat :=
  Nat.add_sub_cancel' (bootBase_le_appBase hv)

/-- The difference of words that `CFG_APP_OFFSET` reads as does not borrow. -/
theorem appBase_sub_bootBase (hv : layoutValid c = true) : c.appBase - c.bootBase = BitVec.ofNat 32 c.appOffset := by
  rw [Config.appOffset, ← BitVec.toNat_sub_of_le (bootBase_le_appBase hv), BitVec.ofNat_toNat, BitVec.setWidth_eq]

/-- A bootloader image within its budget ends at or before the application. -/
theorem le_appOffset_of_fits_boot (hv : layoutValid c = true) {n : Nat} (hn : fits c n .boot = .ok ()) :
    n ≤ c.appOffset :=
  (fits_eq_ok.1 hn).trans (bootSize_le_appOffset hv)

/-- Where bank A begins at the bootloader's end, `app_offset` is the bootloader's size (42_layout.md R172). -/
theorem appOffset_of_layoutContiguous (h : layoutContiguous c = true) : c.appOffset = 0x2000 := by
  obtain ⟨hboot, -⟩ := (layoutContiguous_iff c).1 h
  exact Nat.sub_eq_of_eq_add' hboot.symm

end

/-- Settles O30: the bootloader region ends at or before bank A, and exactly there in a contiguous layout. -/
theorem applicationOffsetUnderValidLayout : Obligations.ApplicationOffsetUnderValidLayout :=
  ⟨fun _ _ hv => ⟨bootSize_le_appOffset hv, bootBase_add_appOffset hv, congrArg some (appBase_sub_bootBase hv),
    fun _ => le_appOffset_of_fits_boot hv⟩, fun _ => appOffset_of_layoutContiguous⟩

/-! ### The regions in the address space (42_layout.md R171) -/

/-- The place of a region in the order of addresses; the application region is bank A (42_layout.md R170). -/
def Region.place : Region → Nat
  | .boot => 0
  | .bankA => 1
  | .app => 1
  | .bankB => 2
  | .data => 3

/-- Two of the four regions with one place are one region. -/
theorem Region.place_inj {r₁ r₂ : Region} (h₁ : r₁ ≠ .app) (h₂ : r₂ ≠ .app) (h : r₁.place = r₂.place) : r₁ = r₂ := by
  cases r₁ <;> cases r₂ <;> simp_all [Region.place]

section
variable {c : Config}

/-- Under a valid layout a region ends at or before the base of every later one: R171 says so of neighbours, and a region
between two others only adds to their distance. -/
theorem regionEnd_le_regionBase (hv : layoutValid c = true) {r₁ r₂ : Region} (h : r₁.place < r₂.place) :
    regionBase c r₁ + regionSize c r₁ ≤ regionBase c r₂ := by
  obtain ⟨-, hboot, hbankA, hbankB, -⟩ := (layoutValid_iff c).1 hv
  cases r₁ <;> cases r₂ <;>
    simp only [Region.place, regionBase, regionSize, bootSize, Config.appBase, Config.appSize] at h ⊢ <;> omega

/-- Under a valid layout every region ends within the 32-bit address space. -/
theorem regionEnd_le_addressSpace (hv : layoutValid c = true) (r : Region) :
    regionBase c r + regionSize c r ≤ 2 ^ 32 := by
  obtain ⟨-, -, -, -, hdata, -⟩ := (layoutValid_iff c).1 hv
  by_cases hr : r = .data
  · rw [hr]
    exact hdata
  · have hplace : r.place < Region.data.place := by cases r <;> simp_all [Region.place]
    exact (regionEnd_le_regionBase hv hplace).trans ((Nat.le_add_right _ _).trans hdata)

/-- An address of a region is in no later one. -/
theorem not_inRegion_of_place_lt (hv : layoutValid c = true) {r₁ r₂ : Region} (h : r₁.place < r₂.place) {a : Nat}
    (h₁ : inRegion c r₁ a = true) : inRegion c r₂ a ≠ true := by
  intro h₂
  have hend := ((inRegion_iff c r₁ a).1 h₁).2
  have hbase := ((inRegion_iff c r₂ a).1 h₂).1
  exact Nat.not_lt.2 ((regionEnd_le_regionBase hv h).trans hbase) hend

theorem eq_of_inRegion (hv : layoutValid c = true) {r₁ r₂ : Region} {a : Nat} (hr₁ : r₁ ≠ .app) (hr₂ : r₂ ≠ .app)
    (h₁ : inRegion c r₁ a = true) (h₂ : inRegion c r₂ a = true) : r₁ = r₂ := by
  rcases Nat.lt_trichotomy r₁.place r₂.place with hlt | heq | hgt
  · exact absurd h₂ (not_inRegion_of_place_lt hv hlt h₁)
  · exact Region.place_inj hr₁ hr₂ heq
  · exact absurd h₁ (not_inRegion_of_place_lt hv hgt h₂)

theorem lt_addressSpace_of_inRegion (hv : layoutValid c = true) {r : Region} {a : Nat}
    (h : inRegion c r a = true) : a < 2 ^ 32 :=
  ((inRegion_iff c r a).1 h).2.trans_le (regionEnd_le_addressSpace hv r)

/-- The record's bytes are written inside the data region (20_memory.md R62). -/
theorem inRegion_recordFlashAddr (hv : layoutValid c = true) {k : Nat} (hk : k < 20) :
    inRegion c .data (recordFlashAddr c k) = true := by
  obtain ⟨-, -, -, -, -, hrecord, -⟩ := (layoutValid_iff c).1 hv
  exact (inRegion_iff c .data _).2 ⟨Nat.le_add_right _ _, Nat.add_lt_add_left (hk.trans_le hrecord) _⟩

end

/-- Settles O31, by the order of the regions: each ends where the next begins or before, and the data region, the last
one, ends in the address space. -/
theorem validLayoutSeparatesRegions : Obligations.ValidLayoutSeparatesRegions := by
  intro c hv
  obtain ⟨-, -, -, -, -, -, hflags⟩ := (layoutValid_iff c).1 hv
  exact ⟨fun _ _ _ => eq_of_inRegion hv, fun _ _ => lt_addressSpace_of_inRegion hv,
    fun _ => inRegion_recordFlashAddr hv, hflags⟩

end Sys2Proof.Machine
end

section
/-! PROOFS. The command `FITS` of the Bank Layout Model (42_layout.md R176). -/

namespace Sys2Proof.Machine

/-- While `FATAL = 0`, `STATUS` is what the latch shows. -/
theorem statusWord_of_not_fatal {s : State} {l : Last} {v : Word} (hf : s.fatal = false) (hlast : s.last = l)
    (hbits : l.statusBits = v) : statusWord s = v := by
  rw [statusWord_of_statusBits hlast hbits, hf, bitWord_false, BitVec.or_zero]

theorem Last.statusBits_fits : (Last.done opcFits).statusBits = 0x00002101#32 := by decide

/-- A latched `SizeExceeded` shows the same flags whatever its two numbers are. -/
theorem Last.statusBits_fits_sizeExceeded (d l : Nat) :
    (Last.error opcFits (.sizeExceeded d l)).statusBits = 0x00002103#32 :=
  calc (Last.error opcFits (.sizeExceeded d l)).statusBits
      = (Last.error opcFits (.sizeExceeded 0 0)).statusBits := rfl
    _ = 0x00002103#32 := by decide

section
variable {sel : Nat} {s : State}

theorem exec_fits_of_error {e : CmdError} (h : fitsOutcome cfg sel s = .error e) :
    exec (.fits sel) s = .next { s with last := .error 0x21#8 e } :=
  exec_of_outcome_error (i := .fits sel) h

theorem exec_fits_of_bad_selector (hsel : 3 < sel) :
    exec (.fits sel) s = .next { s with last := .error 0x21#8 .invalidArgument } :=
  exec_fits_of_error (fitsOutcome_eq_error.2 (.inl (regionOperand_eq_error.2 ⟨hsel, rfl⟩)))

variable {r : Region}

theorem exec_fits_of_fatal (hr : selectsRegion sel r) (hf : s.fatal = true) :
    exec (.fits sel) s = .next { s with last := .error 0x21#8 .layoutInvalid } :=
  exec_fits_of_error (fitsOutcome_eq_error.2 (.inr ⟨r, regionOperand_eq_ok.2 hr, .inl ⟨hf, rfl⟩⟩))

theorem exec_fits_of_le (hr : selectsRegion sel r) (hf : s.fatal = false) (hle : s.arg0.toNat ≤ regionSize cfg r) :
    exec (.fits sel) s = .next { s with last := .done 0x21#8 } :=
  exec_of_outcome_ok (i := .fits sel) (fitsOutcome_eq_ok.2 ⟨r, regionOperand_eq_ok.2 hr, hf, hle, rfl⟩)

theorem exec_fits_of_gt (hr : selectsRegion sel r) (hf : s.fatal = false) (hgt : regionSize cfg r < s.arg0.toNat) :
    exec (.fits sel) s =
      .next { s with last := .error 0x21#8 (.sizeExceeded s.arg0.toNat (regionSize cfg r)) } :=
  exec_fits_of_error (fitsOutcome_eq_error.2 (.inr ⟨r, regionOperand_eq_ok.2 hr, .inr ⟨hf, hgt, rfl⟩⟩))

end

/-- Settles O9, by the first check that fails: the selector, the layout, the budget; and by success when none does. -/
theorem fitsEffect : Obligations.FitsEffect := by
  refine ⟨rfl, rfl, rfl, rfl, rfl, rfl, rfl, rfl,
    fun sel s => ⟨exec_fits_of_bad_selector, fun r hr => ⟨exec_fits_of_fatal hr, fun hf hle => ?_, fun hf hgt => ?_⟩⟩⟩
  · exact ⟨exec_fits_of_le hr hf hle, statusWord_of_not_fatal hf rfl Last.statusBits_fits⟩
  · have hdeclared : BitVec.ofNat 32 s.arg0.toNat = s.arg0 := by rw [BitVec.ofNat_toNat, BitVec.setWidth_eq]
    exact ⟨exec_fits_of_gt hr hf hgt, statusWord_of_not_fatal hf rfl (Last.statusBits_fits_sizeExceeded _ _), rfl,
      congrArg some hdeclared, rfl⟩

end Sys2Proof.Machine
end

section
/-! PROOFS. The metadata codec as functions (43_metadata.md R190 to R195, R199, R200): the entry of each bank, the record
that is built of two entries, and its serialization. -/

namespace Sys2Proof.Machine

/-! ### The entry of one bank (43_metadata.md R191, R193, R200) -/

/-- Every region is smaller than the 32-bit address space, so a budget fits a word. -/
theorem regionSize_lt (c : Config) (r : Region) : regionSize c r < 2 ^ 32 := by
  cases r with
  | boot => exact (by decide : bootSize < 2 ^ 32)
  | bankA => exact c.bankSize.isLt
  | bankB => exact c.bankSize.isLt
  | data => exact c.dataSize.isLt
  | app => exact c.appSize.isLt

theorem bankAccepts_none (c : Config) : bankAccepts c none := nofun

/-- The entry an accepted image gives, whatever the budget it was checked against: an absent image has no bytes. -/
def Memory.entry (m : Memory) : BankEntry :=
  { size := BitVec.ofNat 32 m.len, crc := crcFold crcInitial (wordsLe (m.getD [])) }

section
variable {c : Config} {r : Region}

theorem bankEntry_none (c : Config) (r : Region) : bankEntry c none r = .ok { size := 0#32, crc := crcInitial } := rfl

/-- An empty image passes both checks and has no word to fold: its entry is that of an absent one. -/
theorem bankEntry_some_nil (c : Config) (r : Region) :
    bankEntry c (some []) r = .ok { size := 0#32, crc := crcInitial } :=
  bankEntry_some_eq_ok.2 ⟨Nat.zero_le _, rfl, rfl⟩

theorem bankEntry_of_gt {b : List Byte} (h : regionSize c r < b.length) :
    bankEntry c (some b) r = .error (.sizeExceeded b.length (regionSize c r)) :=
  bankEntry_eq_error.2 ⟨b, rfl, .inl ⟨h, rfl⟩⟩

theorem bankEntry_of_bad_length {b : List Byte} (hle : b.length ≤ regionSize c r) (hlen : b.length % 4 ≠ 0) :
    bankEntry c (some b) r = .error .invalidInputLength :=
  bankEntry_eq_error.2 ⟨b, rfl, .inr ⟨hle, hlen, rfl⟩⟩

/-- In either bank, an image that is accepted has its entry. -/
theorem bankEntry_of_accepts {m : Memory} (hr : regionSize c r = c.bankSize.toNat) (h : bankAccepts c m) :
    bankEntry c m r = .ok m.entry := by
  cases m with
  | none => rfl
  | some b =>
    obtain ⟨hle, hlen⟩ := h b rfl
    exact bankEntry_some_eq_ok.2 ⟨hle.trans_eq hr.symm, hlen, rfl⟩

/-- The entry of a present image says its own length, a multiple of 4, and the checksum of exactly its bytes. -/
theorem bankEntry_some_covers {b : List Byte} {e : BankEntry} (h : bankEntry c (some b) r = .ok e) :
    e.size.toNat = b.length ∧ e.size.toNat % 4 = 0 ∧ crcCompute b = .ok e.crc := by
  obtain ⟨hsize, hmod, -⟩ := bankEntry_size (regionSize_lt c r) h
  obtain ⟨-, hlen, rfl⟩ := bankEntry_some_eq_ok.1 h
  exact ⟨hsize, hmod, crcCompute_of_length hlen⟩

/-- The length of an accepted image is not reduced modulo `2^32`, so it is 0 for the empty image alone. -/
theorem bankEntry_size_ne_zero {b : List Byte} {e : BankEntry} (hb : b ≠ []) (h : bankEntry c (some b) r = .ok e) :
    e.size ≠ 0#32 := by
  intro hzero
  obtain ⟨hsize, -⟩ := bankEntry_some_covers h
  rw [hzero] at hsize
  exact hb (List.eq_nil_of_length_eq_zero hsize.symm)

end

theorem crcWord_initial_B9509BB6 : crcWord 0xFFFFFFFF#32 0xB9509BB6#32 = 0xFFFFFFFF#32 := by decide +kernel

/-- Settles O40: absent and empty give one entry, a longer image has a size of its own, and, a word's checksum being
injective in the word, at most one word has the sentinel as its checksum. -/
theorem absentBankAmbiguity : Obligations.AbsentBankAmbiguity := by
  refine ⟨fun c r => ⟨bankEntry_none c r, bankEntry_some_nil c r⟩, fun _ _ _ _ => bankEntry_size_ne_zero, fun w => ?_⟩
  rw [← (crcWord_bijective 0xFFFFFFFF#32).injective.eq_iff (a := w), crcWord_initial_B9509BB6]

/-! ### The record (43_metadata.md R192, R193, R199) -/

/-- Settles O39, bank by bank from the two entries the record is made of. -/
theorem recordCoversActualImages : Obligations.RecordCoversActualImages := by
  intro c sel a b r h
  obtain ⟨hsel, ea, eb, ha, hb, rfl⟩ := metaBuild_eq_ok.1 h
  refine ⟨?_, ?_, ?_, ?_, ?_⟩
  · rintro img rfl
    exact bankEntry_some_covers ha
  · rintro img rfl
    exact bankEntry_some_covers hb
  · rintro rfl
    cases ha
    exact ⟨rfl, rfl⟩
  · rintro rfl
    cases hb
    exact ⟨rfl, rfl⟩
  · obtain rfl | rfl := Nat.le_one_iff_eq_zero_or_eq_one.1 hsel
    · exact .inl ⟨rfl, rfl⟩
    · exact .inr ⟨rfl, rfl⟩

/-- Settles O37: a record that can be built has a legal flag, and so it survives its serialization. -/
theorem metaRecordRoundTrip : Obligations.MetaRecordRoundTrip := by
  intro c sel a b r h
  obtain ⟨hvalid, -⟩ := metaBuild_buildable h
  exact metaParse_metaSerialize hvalid

/-- The record of two accepted images. -/
def builtRecord (c : Config) (sel : Nat) (a b : Memory) : MetaRecord :=
  { flag := if sel = 0 then c.flagA else c.flagB
    aSize := a.entry.size
    bSize := b.entry.size
    aCrc := a.entry.crc
    bCrc := b.entry.crc }

section
variable {c : Config} {sel : Nat} {a b : Memory}

theorem metaBuild_of_accepts (hsel : sel ≤ 1) (ha : bankAccepts c a) (hb : bankAccepts c b) :
    metaBuild c sel a b = .ok (builtRecord c sel a b) :=
  metaBuild_eq_ok.2 ⟨hsel, _, _, bankEntry_of_accepts rfl ha, bankEntry_of_accepts rfl hb, rfl⟩

theorem metaBuild_of_bankA_error {e : CmdError} (hsel : sel ≤ 1) (ha : bankEntry c a .bankA = .error e) :
    metaBuild c sel a b = .error e :=
  metaBuild_eq_error.2 (.inr ⟨hsel, .inl ha⟩)

/-- Bank B is examined only after bank A was accepted. -/
theorem metaBuild_of_bankB_error {e : CmdError} (hsel : sel ≤ 1) (ha : bankAccepts c a)
    (hb : bankEntry c b .bankB = .error e) : metaBuild c sel a b = .error e :=
  metaBuild_eq_error.2 (.inr ⟨hsel, .inr ⟨_, bankEntry_of_accepts rfl ha, hb⟩⟩)

end

/-! ### The worked example (95_test_vectors.md) -/

/-- Image A1, 200 bytes: a header of 20, then 180 that follow a rule, as the statement writes them. -/
def imageA1 : List Byte :=
  [0xEF#8, 0xBE#8, 0xAD#8, 0xDE#8, 0x00#8, 0x00#8, 0x01#8, 0x00#8, 0xC8#8, 0x00#8, 0x00#8, 0x00#8,
   0x00#8, 0x00#8, 0x00#8, 0x00#8, 0x00#8, 0x00#8, 0x00#8, 0x00#8] ++
    (List.range 180).map fun k => BitVec.ofNat 8 (7 * (k + 20) + 3)

theorem imageA1_length : imageA1.length = 200 := by
  simp [imageA1]

/-- A fold may be evaluated piece by piece: the next `n` words from place `m` on, then the rest. -/
theorem crcFold_drop {a v : Word} {ws : List Word} (m n : Nat) (h : crcFold a ((ws.drop m).take n) = v) :
    crcFold a (ws.drop m) = crcFold v (ws.drop (m + n)) := by
  rw [← h, ← crcFold_append, ← List.drop_drop, List.take_append_drop]

/-- The checksum of the image, ten of its 50 words at a time. -/
theorem crcFold_imageA1 : crcFold crcInitial (wordsLe imageA1) = 0x39F92090#32 :=
  calc crcFold crcInitial (wordsLe imageA1)
      = crcFold 0xDE4B31D9#32 ((wordsLe imageA1).drop 10) := crcFold_drop 0 10 (by decide +kernel)
    _ = crcFold 0xA1AF084D#32 ((wordsLe imageA1).drop 20) := crcFold_drop 10 10 (by decide +kernel)
    _ = crcFold 0x6DB7F34B#32 ((wordsLe imageA1).drop 30) := crcFold_drop 20 10 (by decide +kernel)
    _ = crcFold 0x61F9E281#32 ((wordsLe imageA1).drop 40) := crcFold_drop 30 10 (by decide +kernel)
    _ = 0x39F92090#32 := by decide +kernel

theorem entry_imageA1 : Memory.entry (some imageA1) = { size := 200#32, crc := 0x39F92090#32 } := by
  rw [Memory.entry, Option.getD_some, crcFold_imageA1, show Memory.len (some imageA1) = 200 from imageA1_length]

/-- The record of image A1 in bank A and no image in bank B, the flag byte of bank A being 0x0A. -/
def recordA1 : MetaRecord :=
  { flag := 0x0A#8, aSize := 200#32, bSize := 0#32, aCrc := 0x39F92090#32, bCrc := 0xFFFFFFFF#32 }

theorem metaSerialize_recordA1 : metaSerialize recordA1 =
    [0x0A#8, 0x00#8, 0x00#8, 0x00#8, 0xC8#8, 0x00#8, 0x00#8, 0x00#8, 0x00#8, 0x00#8, 0x00#8, 0x00#8,
     0x90#8, 0x20#8, 0xF9#8, 0x39#8, 0xFF#8, 0xFF#8, 0xFF#8, 0xFF#8] := by decide

theorem metaBuild_imageA1 {c : Config} (hflag : c.flagA = 0x0A#8) (hsize : 200 ≤ c.bankSize.toNat) :
    metaBuild c 0 (some imageA1) none = .ok recordA1 := by
  have haccepts : bankAccepts c (some imageA1) := by
    rintro b ⟨⟩
    rw [imageA1_length]
    exact ⟨hsize, rfl⟩
  have hrecord : builtRecord c 0 (some imageA1) none = recordA1 := by
    rw [builtRecord, if_pos rfl, hflag, entry_imageA1]
    rfl
  rw [metaBuild_of_accepts (Nat.zero_le 1) haccepts (bankAccepts_none c), hrecord]

theorem metaParse_recordA1 {c : Config} (hflag : c.flagA = 0x0A#8) (x y z : Byte) :
    metaParse c ([0x0A#8, x, y, z] ++ (metaSerialize recordA1).drop 4) = .ok recordA1 :=
  calc metaParse c ([0x0A#8, x, y, z] ++ (metaSerialize recordA1).drop 4)
      = metaParse c (metaSerialize recordA1) := metaParse_congr_reserved c _ x y z 0#8 0#8 0#8 _
    _ = .ok recordA1 := metaParse_metaSerialize (decide_eq_true (.inl hflag.symm))

end Sys2Proof.Machine
end

section
/-! PROOFS. The commands of the metadata codec: `META.BUILD` (43_metadata.md R196, R202) and `META.PARSE` (R201). -/

namespace Sys2Proof.Machine

/-! ### `META.BUILD` -/

/-- A latched record shows the same flags whatever it holds. -/
theorem Last.statusBits_metaBuild (r : MetaRecord) (b : List Byte) :
    (Last.built opcMetaBuild r b).statusBits = 0x00003041#32 :=
  calc (Last.built opcMetaBuild r b).statusBits = (Last.built opcMetaBuild recordA1 []).statusBits := rfl
    _ = 0x00003041#32 := by decide

section
variable {c : Config} {sel : Nat} {s : State}

theorem commandAt_metaBuild_of_error {e : CmdError} (h : metaBuildOutcome c sel s = .error e) :
    commandAt c (.metaBuild sel) s = { s with last := .error 0x30#8 e } :=
  congrArg (s.finish opcMetaBuild) h

theorem commandAt_metaBuild_of_bad_selector (hsel : 1 < sel) :
    commandAt c (.metaBuild sel) s = { s with last := .error 0x30#8 .invalidArgument } :=
  commandAt_metaBuild_of_error (metaBuildOutcome_eq_error.2 (.inl ⟨hsel, rfl⟩))

theorem commandAt_metaBuild_of_fatal (hsel : sel ≤ 1) (hf : s.fatal = true) :
    commandAt c (.metaBuild sel) s = { s with last := .error 0x30#8 .layoutInvalid } :=
  commandAt_metaBuild_of_error (metaBuildOutcome_eq_error.2 (.inr ⟨hsel, .inl ⟨hf, rfl⟩⟩))

variable (hsel : sel ≤ 1) (hf : s.fatal = false)
include hsel hf

theorem commandAt_metaBuild_of_build_error {e : CmdError} (h : metaBuild c sel s.in0 s.in1 = .error e) :
    commandAt c (.metaBuild sel) s = { s with last := .error 0x30#8 e } :=
  commandAt_metaBuild_of_error (metaBuildOutcome_eq_error.2 (.inr ⟨hsel, .inr ⟨hf, h⟩⟩))

theorem commandAt_metaBuild_of_bankA_error {b : List Byte} {e : CmdError} (h0 : s.in0 = some b)
    (h : bankEntry c (some b) .bankA = .error e) :
    commandAt c (.metaBuild sel) s = { s with last := .error 0x30#8 e } :=
  commandAt_metaBuild_of_build_error hsel hf (metaBuild_of_bankA_error hsel (h0 ▸ h))

theorem commandAt_metaBuild_of_bankB_error {b : List Byte} {e : CmdError} (h0 : bankAccepts c s.in0)
    (h1 : s.in1 = some b) (h : bankEntry c (some b) .bankB = .error e) :
    commandAt c (.metaBuild sel) s = { s with last := .error 0x30#8 e } :=
  commandAt_metaBuild_of_build_error hsel hf (metaBuild_of_bankB_error hsel h0 (h1 ▸ h))

/-- With both banks accepted the block latches the record and its bytes. -/
theorem exec_metaBuild_of_accepts (h0 : bankAccepts cfg s.in0) (h1 : bankAccepts cfg s.in1) :
    exec (.metaBuild sel) s = .next { s with
      last := .built 0x30#8 (builtRecord cfg sel s.in0 s.in1) (metaSerialize (builtRecord cfg sel s.in0 s.in1)) } :=
  exec_of_outcome_ok (i := .metaBuild sel)
    (metaBuildOutcome_eq_ok.2 ⟨hsel, hf, _, metaBuild_of_accepts hsel h0 h1, rfl⟩)

end

/-- Settles O10: the worked example; then by the first check that fails, the selector, the layout, bank A, bank B; and by
success when none does. -/
theorem metaBuildEffect : Obligations.MetaBuildEffect := by
  refine ⟨rfl, rfl, fun c hflag hsize => ⟨recordA1, metaBuild_imageA1 hflag hsize, metaSerialize_recordA1⟩,
    fun c sel s => ⟨commandAt_metaBuild_of_bad_selector, commandAt_metaBuild_of_fatal,
      fun hsel hf => ⟨?_, ?_, ?_, ?_⟩⟩, fun sel => exec_eq_commandAt (.metaBuild sel), ?_⟩
  · intro b h0 hgt
    exact commandAt_metaBuild_of_bankA_error hsel hf h0 (bankEntry_of_gt (r := .bankA) hgt)
  · intro b h0 hle hlen
    exact commandAt_metaBuild_of_bankA_error hsel hf h0 (bankEntry_of_bad_length (r := .bankA) hle hlen)
  · intro h0 b h1 hgt
    exact commandAt_metaBuild_of_bankB_error hsel hf h0 h1 (bankEntry_of_gt (r := .bankB) hgt)
  · intro h0 b h1 hle hlen
    exact commandAt_metaBuild_of_bankB_error hsel hf h0 h1 (bankEntry_of_bad_length (r := .bankB) hle hlen)
  · intro sel s hsel hf h0 h1
    exact ⟨exec_metaBuild_of_accepts hsel hf h0 h1, rfl, rfl, rfl,
      statusWord_of_not_fatal hf rfl (Last.statusBits_metaBuild _ _)⟩

/-- Settles O41: absent banks are accepted, and the record has the two entries of an absent bank. -/
theorem absentBanksRecord : Obligations.AbsentBanksRecord := by
  intro s hf h0 h1
  have hexec := exec_metaBuild_of_accepts (Nat.zero_le 1) hf (h0 ▸ bankAccepts_none cfg) (h1 ▸ bankAccepts_none cfg)
  rw [h0, h1] at hexec
  exact ⟨_, hexec, rfl, rfl⟩

/-! ### `META.PARSE` -/

/-- A latched parse of a record shows the same flags whatever it holds. -/
theorem Last.statusBits_metaParse (r : MetaRecord) : (Last.metaParsed opcMetaParse r).statusBits = 0x00003101#32 :=
  calc (Last.metaParsed opcMetaParse r).statusBits = (Last.metaParsed opcMetaParse recordA1).statusBits := rfl
    _ = 0x00003101#32 := by decide

section
variable {sel : Nat} {s : State}

theorem exec_metaParse_of_operand_error {e : CmdError} (h : bufferOperand s sel = .error e) :
    exec (.metaParse sel) s = .next { s with last := .error 0x31#8 e } :=
  exec_of_outcome_error (i := .metaParse sel) (metaParseOutcome_eq_error.2 (.inl h))

variable {b : List Byte} (hb : bufferOperand s sel = .ok b)
include hb

theorem exec_metaParse_of_parse_error {e : CmdError} (h : metaParse cfg b = .error e) :
    exec (.metaParse sel) s = .next { s with last := .error 0x31#8 e } :=
  exec_of_outcome_error (i := .metaParse sel) (metaParseOutcome_eq_error.2 (.inr ⟨b, hb, h⟩))

theorem exec_metaParse_of_parse_ok {r : MetaRecord} (h : metaParse cfg b = .ok r) :
    exec (.metaParse sel) s = .next { s with last := .metaParsed 0x31#8 r } :=
  exec_of_outcome_ok (i := .metaParse sel) (metaParseOutcome_eq_ok.2 ⟨b, hb, r, h, rfl⟩)

end

/-- Settles O11, by the first check that fails: the selector, presence, the length, the flag byte; and by success when none
does. -/
theorem metaParseEffect : Obligations.MetaParseEffect := by
  refine ⟨rfl, rfl, fun c x y z hflag => metaParse_recordA1 hflag x y z,
    fun sel s => ⟨?_, fun i hi => ⟨?_, fun b hb => ?_⟩⟩⟩
  · intro hsel
    exact exec_metaParse_of_operand_error (bufferOperand_eq_error.2 (.inl ⟨hsel, rfl⟩))
  · intro hnone
    exact exec_metaParse_of_operand_error (bufferOperand_eq_error.2 (.inr ⟨i, hi, hnone, rfl⟩))
  · have hoperand : bufferOperand s sel = .ok b := bufferOperand_eq_ok.2 ⟨i, hi, hb⟩
    refine ⟨fun hlen => ?_, fun hlen hA hB => ?_, fun hlen hflag => ?_⟩
    · exact exec_metaParse_of_parse_error hoperand (metaParse_eq_error.2 (.inl ⟨hlen, rfl⟩))
    · exact exec_metaParse_of_parse_error hoperand (metaParse_eq_error.2 (.inr ⟨hlen, not_or.2 ⟨hA, hB⟩, rfl⟩))
    · exact ⟨exec_metaParse_of_parse_ok hoperand (metaParse_eq_ok.2 ⟨hlen, hflag, rfl⟩), rfl, rfl,
        statusWord_of_statusBits rfl (Last.statusBits_metaParse _)⟩

end Sys2Proof.Machine
end

section
/-! PROOFS. The merge as a function (44_merge.md R220 to R223, R227 to R229): which pairs of images it takes, the three
parts of its output, and the header of the worked example. -/

namespace Sys2Proof.Machine

/-! ### Which pairs are taken (44_merge.md R221, R228) -/

/-- A merged image: the bootloader, the fill up to `app_offset`, the application (44_merge.md R220). -/
def mergedImage (c : Config) (boot app : List Byte) : List Byte :=
  boot ++ List.replicate (c.appOffset - boot.length) erased ++ app

section
variable {c : Config} {boot app : List Byte}

theorem merge_of_long_boot (hboot : 8192 < boot.length) :
    merge c boot app = .error (.sizeExceeded boot.length 8192) :=
  merge_eq_error.2 (.inl ⟨hboot, rfl⟩)

variable (hboot : boot.length ≤ 8192)
include hboot

theorem merge_of_long_app (happ : c.appSize.toNat < app.length) :
    merge c boot app = .error (.sizeExceeded app.length c.appSize.toNat) :=
  merge_eq_error.2 (.inr ⟨hboot, happ, rfl⟩)

theorem merge_of_budgets (happ : app.length ≤ c.appSize.toNat) : merge c boot app = .ok (mergedImage c boot app) :=
  merge_eq_ok.2 ⟨hboot, happ, rfl⟩

end

/-- Settles O34, by the first budget that is exceeded; the application's is the bank's size. -/
theorem mergeRejectsOversizeImages : Obligations.MergeRejectsOversizeImages :=
  fun _ _ _ => ⟨merge_of_long_boot, merge_of_long_app, fun hboot happ => ⟨_, merge_of_budgets hboot happ⟩⟩

/-! ### The parts of the output (44_merge.md R220, R223, R227) -/

/-- Under a valid layout a merged image is cut at the bootloader's length and at `app_offset` into the bootloader, the
fill and the application. -/
theorem merge_parts {c : Config} {boot app m : List Byte} (hv : layoutValid c = true)
    (h : merge c boot app = .ok m) :
    m.take boot.length = boot ∧
      (m.drop boot.length).take (c.appOffset - boot.length) =
        List.replicate (c.appOffset - boot.length) erased ∧
      m.drop c.appOffset = app := by
  obtain ⟨hboot, -, rfl⟩ := merge_eq_ok.1 h
  have hpad : (boot ++ List.replicate (c.appOffset - boot.length) erased).length = c.appOffset := by
    rw [List.length_append, List.length_replicate, Nat.add_sub_cancel' (hboot.trans (bootSize_le_appOffset hv))]
  refine ⟨?_, ?_, List.drop_left' hpad⟩
  · rw [List.append_assoc, List.take_left]
  · rw [List.append_assoc, List.drop_left, List.take_left' List.length_replicate]

/-- Settles O33: the exact length, and each byte read in the part of the image that holds it. -/
theorem mergedImageBytes : Obligations.MergedImageBytes := by
  intro c boot app m hv hm
  obtain ⟨hboot, hfill, happ⟩ := merge_parts hv hm
  refine ⟨merge_length_of_valid hv hm, fun k hk => ?_, fun k hle hlt => ?_, fun k hle => ?_⟩
  · rw [← List.getElem?_take_of_lt hk, hboot]
  · have hk : k - boot.length < c.appOffset - boot.length := Nat.sub_lt_sub_right hle hlt
    calc m[k]? = (m.drop boot.length)[k - boot.length]? := by rw [List.getElem?_drop, Nat.add_sub_cancel' hle]
      _ = (List.replicate (c.appOffset - boot.length) erased)[k - boot.length]? := by
        rw [← List.getElem?_take_of_lt hk, hfill]
      _ = some 0xFF#8 := List.getElem?_replicate_of_lt hk
  · rw [← happ, List.getElem?_drop, Nat.add_sub_cancel' hle]

/-! ### The header of the worked example (44_merge.md R229) -/

/-- The first eight bytes of the application: the magic, then the version. -/
def version100Start : List Byte := [0xEF#8, 0xBE#8, 0xAD#8, 0xDE#8, 0x00#8, 0x00#8, 0x01#8, 0x00#8]

/-- An image that begins with these eight bytes has the magic and version 1.0.0. -/
theorem headerFields_of_version100Start {img : List Byte} (h : img.take 8 = version100Start) :
    (headerFields img).magic = hdrMagic ∧ (headerFields img).version = 0x00010000#32 := by
  have hmagic : wordAt img 0 = wordAt version100Start 0 := by rw [← h, wordAt_take (by decide)]
  have hversion : wordAt img 4 = wordAt version100Start 4 := by rw [← h, wordAt_take (by decide)]
  exact ⟨hmagic.trans (le32_bytes hdrMagic), hversion.trans (le32_bytes 0x00010000#32)⟩

theorem versionStr_100 : versionStr 0x00010000#32 = "v1.0.0" := by decide

/-- Where the image is long enough its header is present, and its version string is that of version 1.0.0. -/
theorem hdrParse_of_version100Start {img : List Byte} (hlen : hdrSize ≤ img.length)
    (h : img.take 8 = version100Start) :
    (hdrParse img).state = .present ∧ (hdrParse img).versionStr? = some "v1.0.0" := by
  obtain ⟨hmagic, hversion⟩ := headerFields_of_version100Start h
  rw [hdrParse_of_magic hlen hmagic]
  refine ⟨rfl, ?_⟩
  rw [HdrResult.versionStr?, hversion, versionStr_100]

end Sys2Proof.Machine
end

section
/-! PROOFS. The command `MERGE` (44_merge.md R225, R229). -/

namespace Sys2Proof.Machine

section
variable {c : Config} {s : State}

theorem commandAt_merge_of_error {e : CmdError} (h : mergeOutcome c s = .error e) :
    commandAt c .merge s = { s with last := .error 0x40#8 e } :=
  congrArg (s.finish opcMerge) h

theorem commandAt_merge_of_fatal (hf : s.fatal = true) :
    commandAt c .merge s = { s with last := .error 0x40#8 .layoutInvalid } :=
  commandAt_merge_of_error (mergeOutcome_eq_error.2 (.inl ⟨hf, rfl⟩))

variable (hf : s.fatal = false)
include hf

theorem commandAt_merge_of_in0_absent (h0 : s.in0 = none) :
    commandAt c .merge s = { s with last := .error 0x40#8 .operandAbsent } :=
  commandAt_merge_of_error (mergeOutcome_eq_error.2 (.inr ⟨hf, .inl ⟨h0, rfl⟩⟩))

/-- Whether or not the bootloader is there: its absence is the same error. -/
theorem commandAt_merge_of_in1_absent (h1 : s.in1 = none) :
    commandAt c .merge s = { s with last := .error 0x40#8 .operandAbsent } := by
  refine commandAt_merge_of_error (mergeOutcome_eq_error.2 (.inr ⟨hf, ?_⟩))
  cases s.in0 with
  | none => exact .inl ⟨rfl, rfl⟩
  | some boot => exact .inr ⟨boot, rfl, .inl ⟨h1, rfl⟩⟩

variable {boot app : List Byte} (h0 : s.in0 = some boot) (h1 : s.in1 = some app)
include h0 h1

theorem commandAt_merge_of_merge_error {e : CmdError} (h : merge c boot app = .error e) :
    commandAt c .merge s = { s with last := .error 0x40#8 e } :=
  commandAt_merge_of_error (mergeOutcome_eq_error.2 (.inr ⟨hf, .inr ⟨boot, h0, .inr ⟨app, h1, h⟩⟩⟩))

/-- A merge that succeeds is latched with the header state of the application. -/
theorem commandAt_merge_of_merge_ok {m : List Byte} (h : merge c boot app = .ok m) :
    commandAt c .merge s = { s with last := .merged 0x40#8 m (hdrParse app).state } :=
  congrArg (s.finish opcMerge) (mergeOutcome_eq_ok.2 ⟨hf, boot, h0, app, h1, m, h, rfl⟩)

end

/-- `STATUS` after a merge (44_merge.md R225): the header state decides `HDR` and `WARN`, the rest is the same. -/
def HdrState.mergeStatus : HdrState → Word
  | .present => 0x00004051#32
  | .short => 0x00004065#32
  | .badMagic => 0x00004075#32

/-- A latched merge shows the same flags whatever the image is. -/
theorem Last.statusBits_merge (m : List Byte) (x : HdrState) :
    (Last.merged opcMerge m x).statusBits = x.mergeStatus := by
  have hbits : (Last.merged opcMerge m x).statusBits = (Last.merged opcMerge [] x).statusBits := rfl
  rw [hbits]
  cases x <;> decide

/-- While `FATAL = 0`, `STATUS` after a merge is given by the header state that is latched. -/
theorem statusWord_of_merged {s : State} {m : List Byte} {x y : HdrState} (hf : s.fatal = false) (hx : x = y) :
    statusWord { s with last := .merged 0x40#8 m x } = y.mergeStatus := by
  rw [← hx]
  exact statusWord_of_not_fatal hf rfl (Last.statusBits_merge m x)

/-- Settles O12, by the first check that fails: the layout, presence, the bootloader's budget, the application's; and by
success when none does. -/
theorem mergeEffect : Obligations.MergeEffect := by
  refine ⟨rfl, exec_eq_commandAt .merge, fun c s boot app hv hf h0 h1 hboot happ => ?_, fun s => ?_⟩
  · have hm := merge_of_budgets hboot happ
    rw [commandAt_merge_of_merge_ok hf h0 h1 hm, ← merge_length_of_valid hv hm]
    rfl
  · rw [exec_eq_commandAt]
    refine ⟨fun hf => congrArg _ (commandAt_merge_of_fatal hf),
      fun hf h0 => congrArg _ (commandAt_merge_of_in0_absent hf h0),
      fun hf h1 => congrArg _ (commandAt_merge_of_in1_absent hf h1),
      fun hf boot app h0 h1 => ⟨fun hboot => ?_, fun hboot happ => ?_, fun hboot happ => ?_⟩⟩
    · exact congrArg _ (commandAt_merge_of_merge_error hf h0 h1 (merge_of_long_boot hboot))
    · exact congrArg _ (commandAt_merge_of_merge_error hf h0 h1 (merge_of_long_app hboot happ))
    · have hm := merge_of_budgets hboot happ
      exact ⟨_, hm, congrArg _ (commandAt_merge_of_merge_ok hf h0 h1 hm), rfl, rfl, statusWord_of_merged hf,
        statusWord_of_merged hf, statusWord_of_merged hf⟩

/-- Settles O36: both images are within their budgets, the parts of the output are those of every merge, and the header
is the one of version 1.0.0. -/
theorem mergeEndToEndScenario : Obligations.MergeEndToEndScenario := by
  intro c boot app hv hoffset hbank hboot happ hstart
  have hm : merge c boot app = .ok (mergedImage c boot app) := merge_of_budgets (by omega) (happ.trans_le hbank)
  obtain ⟨htake, hfill, hdrop⟩ := merge_parts hv hm
  have hlen := merge_length_of_valid hv hm
  rw [hboot] at htake hfill
  rw [hoffset] at hfill hdrop hlen
  rw [happ] at hlen
  have hsize : hdrSize ≤ app.length := by
    rw [happ]
    decide
  obtain ⟨hpresent, hversion⟩ := hdrParse_of_version100Start hsize hstart
  refine ⟨_, hm, hlen, htake, hfill, hdrop, hpresent, hversion, fun s hf h0 h1 => ⟨?_, ?_⟩⟩
  · rw [commandAt_merge_of_merge_ok hf h0 h1 hm, hpresent]
  · exact statusWord_of_merged hf rfl

end Sys2Proof.Machine
end

section
/-! PROOFS. Error entry, illegal words and `FATAL` (60_exceptions.md R244, R247, R248). -/

namespace Sys2Proof.Machine

/-! ### A command that ends in an error (60_exceptions.md R244) -/

/-- A computed result is never latched as an error: the latch's error case is reserved for the error entry. -/
theorem commandOutcome_ok_ne_error {c : Config} {i : Instr} {s : State} {l : Last} (h : commandOutcome c i s = .ok l)
    (op : Byte) (e : CmdError) : l ≠ .error op e := by
  cases i with
  | crcInit => cases h; nofun
  | crcWord => cases h; nofun
  | crcCompute sel => obtain ⟨_, _, _, _, rfl⟩ := crcComputeOutcome_eq_ok.1 h; nofun
  | hdrParse sel => obtain ⟨_, _, rfl⟩ := hdrParseOutcome_eq_ok.1 h; nofun
  | fits sel => obtain ⟨_, _, _, _, rfl⟩ := fitsOutcome_eq_ok.1 h; nofun
  | metaBuild sel => obtain ⟨_, _, _, _, rfl⟩ := metaBuildOutcome_eq_ok.1 h; nofun
  | metaParse sel => obtain ⟨_, _, _, _, rfl⟩ := metaParseOutcome_eq_ok.1 h; nofun
  | merge => obtain ⟨_, _, _, _, _, _, _, rfl⟩ := mergeOutcome_eq_ok.1 h; nofun

/-- The two commands that write `ACC` have no check that could fail. -/
theorem commandAcc_of_outcome_error {c : Config} {i : Instr} {s : State} {e : CmdError}
    (h : commandOutcome c i s = .error e) : commandAcc i s = s.acc := by
  cases i with
  | crcInit => cases h
  | crcWord => cases h
  | _ => rfl

/-- A command whose outcome is an error is the error entry and nothing else. -/
theorem commandAt_of_outcome_error {c : Config} {i : Instr} {s : State} {e : CmdError}
    (h : commandOutcome c i s = .error e) : commandAt c i s = s.raise i.opcode e := by
  rw [commandAt_eq_finish, h, commandAcc_of_outcome_error h]
  rfl

/-- An error in the latch after a command is one the command took, under its own opcode. -/
theorem commandAt_of_last_error {c : Config} {i : Instr} {s : State} {op : Byte} {e : CmdError}
    (h : (commandAt c i s).last = .error op e) : op = i.opcode ∧ commandAt c i s = s.raise op e := by
  rcases commandAt_last c i s with ⟨l, hok, hlast⟩ | ⟨e', herr, hlast⟩
  · exact absurd (hlast.symm.trans h) (commandOutcome_ok_ne_error hok op e)
  · obtain ⟨rfl, rfl⟩ := Last.error.inj (hlast.symm.trans h)
    exact ⟨rfl, commandAt_of_outcome_error herr⟩

/-- The low byte of a command's word is its opcode (30_encoding.md R90). -/
theorem fieldOpc_encode (i : Instr) : fieldOpc (encode i) = i.opcode :=
  (Laws.EncodedFields.fields_of_parts _ _).1

/-- A latched error shows `DONE`, `ERR` and its opcode, whatever its kind. -/
theorem Last.statusBits_error (op : Byte) (e : CmdError) :
    (Last.error op e).statusBits = 0x00000003#32 ||| (op.setWidth 32 <<< 8) := by
  have hflags : bitWord true 0 ||| bitWord true 1 ||| bitWord false 2 ||| ((0#2).setWidth 32 <<< 4) |||
      bitWord false 6 = 0x00000003#32 := by decide
  rw [← hflags]
  rfl

/-- Settles O17: the command is the error entry at its own opcode, and the registers are the views of a latch that holds
an error. -/
theorem errorEntryWritesOnlyTheLatch : Obligations.ErrorEntryWritesOnlyTheLatch := by
  intro i s t op e h hlast
  obtain rfl := exec_next h
  obtain ⟨hop, hraise⟩ := commandAt_of_last_error hlast
  rw [hraise]
  obtain ⟨hcode, hnumbers, hzero, -⟩ := errorRegistersView (s.raise op e)
  refine ⟨rfl, hop.trans (fieldOpc_encode i).symm, ?_, hcode op e rfl, ?_, hzero op e rfl,
    resultRegistersView (s.raise op e), rfl, rfl⟩
  · calc statusWord (s.raise op e) = 0x00000003#32 ||| (op.setWidth 32 <<< 8) ||| bitWord s.fatal 3 :=
          statusWord_of_statusBits rfl (Last.statusBits_error op e)
      _ = 0x00000003#32 ||| bitWord s.fatal 3 ||| (op.setWidth 32 <<< 8) := by ac_rfl
  · rintro d l rfl
    exact hnumbers op d l rfl

/-! ### Illegal words (60_exceptions.md R247) -/

/-- A write to `CMD` of an illegal word takes `IllegalCommand` under the word's low byte, whatever made it illegal. -/
theorem issue_of_illegal {w : Word} {e : IllegalWord} (h : decode w = .error e)
    (run : Instr → State → Host.Outcome State Fault Refusal) (s : State) :
    issue run w s = .next (s.raise (fieldOpc w) .illegalCommand) := by
  simp only [issue, h]

/-- Settles O14: the step carries out the write, the write takes the error, and the registers show its kind. -/
theorem illegalWordLatchesIllegalCommand : Obligations.IllegalWordLatchesIllegalCommand := by
  intro s w e rest hp hw t
  obtain ⟨hcode, -, hzero, -⟩ := errorRegistersView t
  refine ⟨?_, hcode _ _ rfl, hzero _ _ rfl nofun⟩
  calc step s = issue exec w { s with pending := rest } := step_of_pending hp
    _ = .next t := issue_of_illegal hw exec _

/-! ### `FATAL` (60_exceptions.md R248) -/

/-- No check of the Checksum Engine, of the Header Codec or of the record's parser reads `FATAL`. -/
theorem commandOutcome_with_fatal (c : Config) {i : Instr} (s : State) (f : Bool) (hfits : ∀ sel, i ≠ .fits sel)
    (hbuild : ∀ sel, i ≠ .metaBuild sel) (hmerge : i ≠ .merge) :
    commandOutcome c i { s with fatal := f } = commandOutcome c i s := by
  have hbuf := bufferOperand_congr (s₁ := { s with fatal := f }) (s₂ := s) rfl rfl
  cases i with
  | crcInit => rfl
  | crcWord => rfl
  | crcCompute sel => simp only [commandOutcome, crcComputeOutcome, hbuf]
  | hdrParse sel => simp only [commandOutcome, hdrParseOutcome, hbuf]
  | fits sel => exact absurd rfl (hfits sel)
  | metaBuild sel => exact absurd rfl (hbuild sel)
  | metaParse sel => simp only [commandOutcome, metaParseOutcome, hbuf]
  | merge => exact absurd rfl hmerge

theorem commandAcc_with_fatal (i : Instr) (s : State) (f : Bool) :
    commandAcc i { s with fatal := f } = commandAcc i s := by
  cases i <;> rfl

/-- The end of a command neither reads nor writes `FATAL`. -/
theorem State.finish_setAcc_with_fatal (s : State) (f : Bool) (v : Word) (op : Byte) (r : Except CmdError Last) :
    (State.setAcc { s with fatal := f } v).finish op r = { (s.setAcc v).finish op r with fatal := f } := by
  cases r <;> rfl

/-- A command that does not depend on the layout carries any value of `FATAL` through. -/
theorem commandAt_with_fatal (c : Config) {i : Instr} (s : State) (f : Bool) (hfits : ∀ sel, i ≠ .fits sel)
    (hbuild : ∀ sel, i ≠ .metaBuild sel) (hmerge : i ≠ .merge) :
    commandAt c i { s with fatal := f } = { commandAt c i s with fatal := f } := by
  rw [commandAt_eq_finish, commandAt_eq_finish, commandOutcome_with_fatal c s f hfits hbuild hmerge,
    commandAcc_with_fatal, State.finish_setAcc_with_fatal]

/-- Every region selector up to 3 selects a region (30_encoding.md R93). -/
theorem exists_selectsRegion {sel : Nat} (h : sel ≤ 3) : ∃ r, selectsRegion sel r := by
  cases hr : regionOperand sel with
  | ok r => exact ⟨r, regionOperand_eq_ok.1 hr⟩
  | error e => exact absurd (regionOperand_eq_error.1 hr).1 h.not_gt

/-- A step that carries out no reset keeps `FATAL`, by what a step can do. -/
theorem step_fatal_of_not_reset {s t : State} (hreset : s.pending.head? ≠ some .reset) (h : step s = .next t) :
    t.fatal = s.fatal := by
  rcases step_cases h with ⟨-, rfl⟩ | ⟨a, rest, hp, hcases⟩
  · rfl
  rcases hcases with ⟨_, _, _, i, -, -, -, rfl⟩ | ⟨_, _, _, _, -, -, -, rfl⟩ | ⟨_, _, _, -, -, rfl⟩ |
    ⟨_, _, _, _, -, -, -, rfl⟩ | ⟨_, -, rfl⟩ | ⟨i, m, -, -, rfl⟩ | ⟨rfl, -⟩
  · exact commandAt_fatal cfg i _
  · rfl
  · rfl
  · rfl
  · rfl
  · exact State.setBuf_fatal _ m i
  · exact absurd (congrArg List.head? hp) hreset

/-- Settles O18: the layout check stands second in the three layout commands, the other five do not read `FATAL`, and a
step that writes it is a reset. -/
theorem fatalGatesOnlyLayoutCommands : Obligations.FatalGatesOnlyLayoutCommands := by
  refine ⟨fun s sel hf => ⟨fun hsel => ?_, fun hsel => ?_, ?_⟩, fun i s t f hfits hbuild hmerge h => ?_,
    fun s t => step_fatal_of_not_reset⟩
  · obtain ⟨r, hr⟩ := exists_selectsRegion hsel
    exact exec_fits_of_fatal hr hf
  · rw [exec_eq_commandAt, commandAt_metaBuild_of_fatal hsel hf]
  · rw [exec_eq_commandAt, commandAt_merge_of_fatal hf]
  · obtain rfl := exec_next h
    rw [exec_eq_commandAt, commandAt_with_fatal cfg s f hfits hbuild hmerge]

end Sys2Proof.Machine
end

section
/-! PROOFS. Reset, which host actions a step carries out, and how long results live (70_reset_and_hazards.md R281, R282,
R287, R292). -/

namespace Sys2Proof.Machine

/-! ### Reset (70_reset_and_hazards.md R281, R282) -/

/-- Settles O53: the step carries out the reset input, and that is the reset state with the host's stream kept. -/
theorem resetActionRestoresResetState : Obligations.ResetActionRestoresResetState := by
  intro s rest hp
  calc step s = .next (hostReset cfg { s with pending := rest }) := step_of_pending hp
    _ = .next { State.reset with pending := rest, replies := s.replies } := rfl

/-! ### Which host actions are defined (93_implementation_defined.md U1, U2, U13) -/

section
variable {c : Config} {s : State} {width off n : Nat}

theorem HostAction.defined_readReg_iff : (HostAction.readReg width off).defined c s = true ↔
    ∃ reg v, accessReg width off = .ok reg ∧ Machine.readReg c s reg = some v := by
  cases hr : accessReg width off <;> simp [HostAction.defined, hr, Option.isSome_iff_exists]

theorem HostAction.defined_writeReg_iff {v : Word} : (HostAction.writeReg width off v).defined c s = true ↔
    ∃ reg, accessReg width off = .ok reg := by
  cases hr : accessReg width off <;> simp [HostAction.defined, hr]

theorem HostAction.defined_readOut_iff : (HostAction.readOut off n).defined c s = true ↔
    ∃ b, s.last.out = some b ∧ off + n ≤ b.length := by
  cases hout : s.last.out <;> simp [HostAction.defined, hout]

/-- The host's stream is outside the block: it does not decide which actions have an effect. -/
theorem HostAction.defined_with_pending (c : Config) (s : State) (p : List HostAction) (a : HostAction) :
    a.defined c { s with pending := p } = a.defined c s := by
  cases a with
  | readReg width off => simp only [HostAction.defined, readReg_with_pending]
  | _ => rfl

/-! ### What the defined actions answer -/

/-- A write of `CMD` issues the word. -/
theorem hostWrite_of_cmd {run : Instr → State → Host.Outcome State Fault Refusal} {v : Word}
    (h : accessReg width off = .ok .cmd) : hostWrite run width off v s = issue run v s := by
  simp only [hostWrite, h]

/-- Every write to `CMD` goes on, of a legal word or not (70_reset_and_hazards.md R292). -/
theorem exists_issue_eq_next (w : Word) (s : State) : ∃ t, issue exec w s = .next t := by
  cases hw : decode w with
  | ok i => exact ⟨_, (issue_of_decode hw exec s).trans (exec_eq_commandAt i s)⟩
  | error e => exact ⟨_, issue_of_illegal hw exec s⟩

theorem exists_hostRead_eq_next_iff : (∃ t, hostRead c width off s = .next t) ↔
    (HostAction.readReg width off).defined c s = true := by
  rw [HostAction.defined_readReg_iff]
  constructor
  · rintro ⟨t, h⟩
    obtain ⟨reg, v, hr, hv, -⟩ := hostRead_cases h
    exact ⟨reg, v, hr, hv⟩
  · rintro ⟨reg, v, hr, hv⟩
    exact ⟨_, hostRead_of_value hr hv⟩

theorem exists_hostWrite_eq_next_iff {v : Word} : (∃ t, hostWrite exec width off v s = .next t) ↔
    (HostAction.writeReg width off v).defined c s = true := by
  rw [HostAction.defined_writeReg_iff]
  constructor
  · rintro ⟨t, h⟩
    rcases hostWrite_cases h with ⟨hr, -⟩ | ⟨hr, -⟩ | ⟨reg, hr, -, -⟩
    · exact ⟨_, hr⟩
    · exact ⟨_, hr⟩
    · exact ⟨reg, hr⟩
  · rintro ⟨reg, hr⟩
    by_cases hcmd : reg = .cmd
    · subst hcmd
      rw [hostWrite_of_cmd hr]
      exact exists_issue_eq_next v s
    by_cases harg0 : reg = .arg0
    · subst harg0
      exact ⟨_, hostWrite_of_arg0 hr⟩
    · exact ⟨_, hostWrite_of_readOnly hr hcmd harg0⟩

theorem exists_hostLoad_eq_next_iff {i : Buf} {b : List Byte} : (∃ t, hostLoad i b s = .next t) ↔
    (HostAction.load i b).defined c s = true := by
  by_cases hb : b.length ≤ maxLen <;> simp [hostLoad, HostAction.defined, hb]

theorem exists_hostReadOut_eq_next_iff : (∃ t, hostReadOut off n s = .next t) ↔
    (HostAction.readOut off n).defined c s = true := by
  rw [HostAction.defined_readOut_iff]
  constructor
  · rintro ⟨t, h⟩
    obtain ⟨b, hout, hle, -⟩ := hostReadOut_cases h
    exact ⟨b, hout, hle⟩
  · rintro ⟨b, hout, hle⟩
    exact ⟨_, hostReadOut_of_le hout hle⟩

end

/-- A host action goes on exactly when it has a defined effect. -/
theorem exists_hostAct_eq_next_iff (c : Config) (a : HostAction) (s : State) :
    (∃ t, hostAct c exec a s = .next t) ↔ a.defined c s = true := by
  cases a with
  | readReg width off => exact exists_hostRead_eq_next_iff
  | writeReg width off v => exact exists_hostWrite_eq_next_iff
  | load i b => exact exists_hostLoad_eq_next_iff
  | clear i => exact iff_of_true ⟨_, rfl⟩ rfl
  | readOut off n => exact exists_hostReadOut_eq_next_iff
  | reset => exact iff_of_true ⟨_, rfl⟩ rfl

/-- Settles O55: an idle step goes on, and a step with an action pending goes on exactly when that action is defined. -/
theorem stepStopsOnlyOnUndefinedActions : Obligations.StepStopsOnlyOnUndefinedActions := by
  intro s
  cases hp : s.pending with
  | nil => exact iff_of_true ⟨s, by simp only [step, stepWith, hp]⟩ nofun
  | cons a rest =>
    rw [step_of_pending hp, exists_hostAct_eq_next_iff, HostAction.defined_with_pending]
    constructor
    · rintro h _ _ ⟨⟩
      exact h
    · intro h
      exact h a rest rfl

/-! ### Results live until the next command (70_reset_and_hazards.md R287) -/

/-- A write to `CMD` is an action that replaces the latch. -/
theorem HostAction.replacesLast_of_cmd {width off : Nat} {v : Word} (h : accessReg width off = .ok .cmd) :
    (HostAction.writeReg width off v).replacesLast = true :=
  decide_eq_true h

/-- A step that is no command and no reset keeps `FATAL`, `ACC` and the latch, by what a step can do. -/
theorem step_frame_of_not_replacesLast {s t : State}
    (ha : ∀ a rest, s.pending = a :: rest → a.replacesLast = false) (h : step s = .next t) :
    t.fatal = s.fatal ∧ t.acc = s.acc ∧ t.last = s.last := by
  rcases step_cases h with ⟨-, rfl⟩ | ⟨a, rest, hp, hcases⟩
  · exact ⟨rfl, rfl, rfl⟩
  have hkeeps : a.replacesLast ≠ true := Bool.eq_false_iff.1 (ha a rest hp)
  rcases hcases with ⟨_, _, _, _, rfl, hcmd, -, -⟩ | ⟨_, _, _, _, rfl, hcmd, -, -⟩ | ⟨_, _, _, -, -, rfl⟩ |
    ⟨_, _, _, _, -, -, -, rfl⟩ | ⟨_, -, rfl⟩ | ⟨i, m, -, -, rfl⟩ | ⟨rfl, -⟩
  · exact absurd (HostAction.replacesLast_of_cmd hcmd) hkeeps
  · exact absurd (HostAction.replacesLast_of_cmd hcmd) hkeeps
  · exact ⟨rfl, rfl, rfl⟩
  · exact ⟨rfl, rfl, rfl⟩
  · exact ⟨rfl, rfl, rfl⟩
  · exact ⟨State.setBuf_fatal _ m i, State.setBuf_acc _ m i, State.setBuf_last _ m i⟩
  · exact absurd rfl hkeeps

/-- Every register but `ARG0` and the three views of the input buffers is a view of `FATAL`, `ACC` and the latch. -/
theorem readReg_congr (c : Config) {s t : State} (hfatal : t.fatal = s.fatal) (hacc : t.acc = s.acc)
    (hlast : t.last = s.last) {r : Reg} (harg0 : r ≠ .arg0) (hin0 : r ≠ .in0Len) (hin1 : r ≠ .in1Len)
    (hpresent : r ≠ .inPresent) : readReg c t r = readReg c s r := by
  cases r with
  | arg0 => exact absurd rfl harg0
  | in0Len => exact absurd rfl hin0
  | in1Len => exact absurd rfl hin1
  | inPresent => exact absurd rfl hpresent
  | _ => simp only [readReg, statusWord, hfatal, hacc, hlast]

/-- Settles O56: the step keeps what the registers but the operand's and the buffers' are views of. -/
theorem resultsLiveUntilNextCommand : Obligations.ResultsLiveUntilNextCommand := by
  intro s t ha h
  obtain ⟨hfatal, hacc, hlast⟩ := step_frame_of_not_replacesLast ha h
  exact ⟨hlast, hacc, congrArg Last.out hlast, fun r => readReg_congr cfg hfatal hacc hlast⟩

end Sys2Proof.Machine
end
